-- ==== Sys2Proof/Word.lean ====
section
/-! DEFINITION. The machine's words: 32-bit values, bytes and 5-bit register indexes (00_scope.md R8, R12, R13). -/

namespace Sys2Proof

/-- `Bits32` of R13: a 32-bit pattern; signedness belongs to the operation that reads it (R25). -/
abbrev Word := BitVec 32

/-- One memory cell, 8 bits (R8). -/
abbrev Byte := BitVec 8

/-- A register index, 5 bits, in [0, 31] (R22, R79). -/
abbrev RegIdx := BitVec 5

end Sys2Proof
end

