-- ==== Sys2Proof/Machine/Flags.lean ====
section
/-! DEFINITION. The hardware has no flags (10_state.md R33). What other machines keep in flags is computed afresh from two values:
the comparisons of the branches (R103 to R108) and of the set-if-less instructions (R123, R124, R134, R135). -/

namespace Sys2Proof.Machine

/-- `a = b` -/
def condEq (a b : Word) : Bool := a == b
/-- `signed(a) < signed(b)` -/
def condLt (a b : Word) : Bool := a.slt b
/-- `unsigned(a) < unsigned(b)` -/
def condLtu (a b : Word) : Bool := a.ult b

/-- `cond ? 1 : 0` (R123). -/
def setIf (c : Bool) : Word := if c then 1 else 0

end Sys2Proof.Machine
end

