-- ==== Sys2Proof/Syntax.lean ====
section
/-! DEFINITION. The instructions: one constructor for each of the 48 rows of spec/opcode_table.json (00_scope.md R3). A constructor
holds the fields of its format as the decoder gives them (30_encoding.md R87): an immediate is the 32-bit decoded value, a shift
amount a 5-bit literal. FENCE, ECALL and EBREAK hold the fields their rules ignore (R87, R90; log 7). -/

namespace Sys2Proof

/-- A decoded instruction (R87). -/
inductive Instr where
  -- U format (R84)
  | lui (rd : RegIdx) (imm : Word)
  | auipc (rd : RegIdx) (imm : Word)
  -- J format (R85)
  | jal (rd : RegIdx) (imm : Word)
  -- I format (R81)
  | jalr (rd rs1 : RegIdx) (imm : Word)
  -- B format (R83)
  | beq (rs1 rs2 : RegIdx) (imm : Word)
  | bne (rs1 rs2 : RegIdx) (imm : Word)
  | blt (rs1 rs2 : RegIdx) (imm : Word)
  | bge (rs1 rs2 : RegIdx) (imm : Word)
  | bltu (rs1 rs2 : RegIdx) (imm : Word)
  | bgeu (rs1 rs2 : RegIdx) (imm : Word)
  -- loads, I format (R81)
  | lb (rd rs1 : RegIdx) (imm : Word)
  | lh (rd rs1 : RegIdx) (imm : Word)
  | lw (rd rs1 : RegIdx) (imm : Word)
  | lbu (rd rs1 : RegIdx) (imm : Word)
  | lhu (rd rs1 : RegIdx) (imm : Word)
  -- stores, S format (R82)
  | sb (rs1 rs2 : RegIdx) (imm : Word)
  | sh (rs1 rs2 : RegIdx) (imm : Word)
  | sw (rs1 rs2 : RegIdx) (imm : Word)
  -- register-immediate, I format (R81)
  | addi (rd rs1 : RegIdx) (imm : Word)
  | slti (rd rs1 : RegIdx) (imm : Word)
  | sltiu (rd rs1 : RegIdx) (imm : Word)
  | xori (rd rs1 : RegIdx) (imm : Word)
  | ori (rd rs1 : RegIdx) (imm : Word)
  | andi (rd rs1 : RegIdx) (imm : Word)
  -- shift-immediate, I format with shamt (R86)
  | slli (rd rs1 : RegIdx) (shamt : BitVec 5)
  | srli (rd rs1 : RegIdx) (shamt : BitVec 5)
  | srai (rd rs1 : RegIdx) (shamt : BitVec 5)
  -- register-register, R format (R80)
  | add (rd rs1 rs2 : RegIdx)
  | sub (rd rs1 rs2 : RegIdx)
  | sll (rd rs1 rs2 : RegIdx)
  | slt (rd rs1 rs2 : RegIdx)
  | sltu (rd rs1 rs2 : RegIdx)
  | xor (rd rs1 rs2 : RegIdx)
  | srl (rd rs1 rs2 : RegIdx)
  | sra (rd rs1 rs2 : RegIdx)
  | or (rd rs1 rs2 : RegIdx)
  | and (rd rs1 rs2 : RegIdx)
  -- multiply and divide, R format (R80)
  | mul (rd rs1 rs2 : RegIdx)
  | mulh (rd rs1 rs2 : RegIdx)
  | mulhsu (rd rs1 rs2 : RegIdx)
  | mulhu (rd rs1 rs2 : RegIdx)
  | div (rd rs1 rs2 : RegIdx)
  | divu (rd rs1 rs2 : RegIdx)
  | rem (rd rs1 rs2 : RegIdx)
  | remu (rd rs1 rs2 : RegIdx)
  -- system, I format; the immediate of ECALL is 0 and of EBREAK is 1 (R90)
  | fence (rd rs1 : RegIdx) (imm : Word)
  | ecall (rd rs1 : RegIdx)
  | ebreak (rd rs1 : RegIdx)
  deriving DecidableEq, Repr

/-- The six formats (R80 to R85). -/
inductive Format where
  | R | I | S | B | U | J
  deriving DecidableEq, Repr

/-- The format of each mnemonic (R95). -/
def Instr.format : Instr → Format
  | .lui .. | .auipc .. => .U
  | .jal .. => .J
  | .jalr .. | .lb .. | .lh .. | .lw .. | .lbu .. | .lhu .. => .I
  | .addi .. | .slti .. | .sltiu .. | .xori .. | .ori .. | .andi .. => .I
  | .slli .. | .srli .. | .srai .. | .fence .. | .ecall .. | .ebreak .. => .I
  | .sb .. | .sh .. | .sw .. => .S
  | .beq .. | .bne .. | .blt .. | .bge .. | .bltu .. | .bgeu .. => .B
  | .add .. | .sub .. | .sll .. | .slt .. | .sltu .. | .xor .. | .srl .. | .sra .. | .or .. | .and .. => .R
  | .mul .. | .mulh .. | .mulhsu .. | .mulhu .. | .div .. | .divu .. | .rem .. | .remu .. => .R

/-- The mnemonic, the tag that names the instruction, as R3 spells it. -/
def Instr.mnemonic : Instr → String
  | .lui .. => "LUI" | .auipc .. => "AUIPC" | .jal .. => "JAL" | .jalr .. => "JALR"
  | .beq .. => "BEQ" | .bne .. => "BNE" | .blt .. => "BLT" | .bge .. => "BGE" | .bltu .. => "BLTU" | .bgeu .. => "BGEU"
  | .lb .. => "LB" | .lh .. => "LH" | .lw .. => "LW" | .lbu .. => "LBU" | .lhu .. => "LHU"
  | .sb .. => "SB" | .sh .. => "SH" | .sw .. => "SW"
  | .addi .. => "ADDI" | .slti .. => "SLTI" | .sltiu .. => "SLTIU" | .xori .. => "XORI" | .ori .. => "ORI" | .andi .. => "ANDI"
  | .slli .. => "SLLI" | .srli .. => "SRLI" | .srai .. => "SRAI"
  | .add .. => "ADD" | .sub .. => "SUB" | .sll .. => "SLL" | .slt .. => "SLT" | .sltu .. => "SLTU"
  | .xor .. => "XOR" | .srl .. => "SRL" | .sra .. => "SRA" | .or .. => "OR" | .and .. => "AND"
  | .mul .. => "MUL" | .mulh .. => "MULH" | .mulhsu .. => "MULHSU" | .mulhu .. => "MULHU"
  | .div .. => "DIV" | .divu .. => "DIVU" | .rem .. => "REM" | .remu .. => "REMU"
  | .fence .. => "FENCE" | .ecall .. => "ECALL" | .ebreak .. => "EBREAK"

/-- The decoded 32-bit immediate of the formats that have one; ECALL holds 0 and EBREAK 1 (R87, R90). -/
def Instr.imm : Instr → Option Word
  | .lui _ imm | .auipc _ imm | .jal _ imm | .jalr _ _ imm => some imm
  | .beq _ _ imm | .bne _ _ imm | .blt _ _ imm | .bge _ _ imm | .bltu _ _ imm | .bgeu _ _ imm => some imm
  | .lb _ _ imm | .lh _ _ imm | .lw _ _ imm | .lbu _ _ imm | .lhu _ _ imm => some imm
  | .sb _ _ imm | .sh _ _ imm | .sw _ _ imm => some imm
  | .addi _ _ imm | .slti _ _ imm | .sltiu _ _ imm | .xori _ _ imm | .ori _ _ imm | .andi _ _ imm => some imm
  | .slli .. | .srli .. | .srai .. => none
  | .add .. | .sub .. | .sll .. | .slt .. | .sltu .. | .xor .. | .srl .. | .sra .. | .or .. | .and .. => none
  | .mul .. | .mulh .. | .mulhsu .. | .mulhu .. | .div .. | .divu .. | .rem .. | .remu .. => none
  | .fence _ _ imm => some imm
  | .ecall .. => some 0
  | .ebreak .. => some 1

end Sys2Proof
end

