-- ==== Sys2Proof/WellFormed.lean ====
section
/-! DEFINITION. Which instructions the encoding admits: the immediate of each format lies in the range 30_encoding.md gives it.
Register indexes and shift amounts are bounded by their types. -/

namespace Sys2Proof

/-- An I or S immediate: in [-2048, 2047] (R81, R82). -/
def immFits12 (imm : Word) : Bool := decide (-2048 ≤ imm.toInt) && decide (imm.toInt ≤ 2047)

/-- A B immediate: even, in [-4096, 4094] (R83). -/
def immFitsB (imm : Word) : Bool := decide (-4096 ≤ imm.toInt) && decide (imm.toInt ≤ 4094) && decide (imm.toInt % 2 = 0)

/-- A U immediate: a multiple of 4096 (R84). -/
def immFitsU (imm : Word) : Bool := decide (imm.toInt % 4096 = 0)

/-- A J immediate: even, in [-1048576, 1048574] (R85). -/
def immFitsJ (imm : Word) : Bool :=
  decide (-1048576 ≤ imm.toInt) && decide (imm.toInt ≤ 1048574) && decide (imm.toInt % 2 = 0)

/-- Every field is one that the instruction's format can encode. -/
def Instr.wellFormed : Instr → Bool
  | .lui _ imm | .auipc _ imm => immFitsU imm
  | .jal _ imm => immFitsJ imm
  | .jalr _ _ imm => immFits12 imm
  | .beq _ _ imm | .bne _ _ imm | .blt _ _ imm | .bge _ _ imm | .bltu _ _ imm | .bgeu _ _ imm => immFitsB imm
  | .lb _ _ imm | .lh _ _ imm | .lw _ _ imm | .lbu _ _ imm | .lhu _ _ imm => immFits12 imm
  | .sb _ _ imm | .sh _ _ imm | .sw _ _ imm => immFits12 imm
  | .addi _ _ imm | .slti _ _ imm | .sltiu _ _ imm | .xori _ _ imm | .ori _ _ imm | .andi _ _ imm => immFits12 imm
  | .slli .. | .srli .. | .srai .. => true
  | .add .. | .sub .. | .sll .. | .slt .. | .sltu .. | .xor .. | .srl .. | .sra .. | .or .. | .and .. => true
  | .mul .. | .mulh .. | .mulhsu .. | .mulhu .. | .div .. | .divu .. | .rem .. | .remu .. => true
  | .fence _ _ imm => immFits12 imm
  | .ecall .. | .ebreak .. => true

/-- A well-formed instruction. -/
abbrev Instr.WellFormed (i : Instr) : Prop := i.wellFormed = true

end Sys2Proof
end

