-- ==== Sys2Proof/Decode.lean ====
section
/-! DEFINITION. Decoding and encoding: the fields and immediates of 30_encoding.md R79 to R87, the nested lookup of R88 to R91, the
encoder from the same tables, and the opcode table's rows. The numeric values are those of R89 (the spec's decision D2; log 5). -/

namespace Sys2Proof

/-! Fields. `w.extractLsb' lo len` is the spec's `w[lo+len-1 : lo]` (R12). -/

/-- `inst[6:0]` (R79). -/
def opcodeOf (w : Word) : BitVec 7 := w.extractLsb' 0 7
/-- `inst[11:7]` (R79, C1). -/
def rdOf (w : Word) : RegIdx := w.extractLsb' 7 5
/-- `inst[14:12]` (R79). -/
def funct3Of (w : Word) : BitVec 3 := w.extractLsb' 12 3
/-- `inst[19:15]` (R79). -/
def rs1Of (w : Word) : RegIdx := w.extractLsb' 15 5
/-- `inst[24:20]` (R79, C1). -/
def rs2Of (w : Word) : RegIdx := w.extractLsb' 20 5
/-- `inst[31:25]` (R79). -/
def funct7Of (w : Word) : BitVec 7 := w.extractLsb' 25 7
/-- `inst[31:20]`, the full 12-bit immediate field (R90). -/
def funct12Of (w : Word) : BitVec 12 := w.extractLsb' 20 12
/-- The shift amount, `inst[24:20]` (R86). -/
def shamtOf (w : Word) : BitVec 5 := w.extractLsb' 20 5

/-- `sext_12(inst[31:20])` (R81). -/
def immIOf (w : Word) : Word := (w.extractLsb' 20 12).signExtend 32
/-- `sext_12({inst[31:25], inst[11:7]})` (R82). -/
def immSOf (w : Word) : Word := (w.extractLsb' 25 7 ++ w.extractLsb' 7 5 : BitVec 12).signExtend 32
/-- `sext_13({inst[31], inst[7], inst[30:25], inst[11:8], 0})` (R83). -/
def immBOf (w : Word) : Word :=
  (w.extractLsb' 31 1 ++ w.extractLsb' 7 1 ++ w.extractLsb' 25 6 ++ w.extractLsb' 8 4 ++ 0#1 : BitVec 13).signExtend 32
/-- `{inst[31:12], 0^12}` (R84). -/
def immUOf (w : Word) : Word := w.extractLsb' 12 20 ++ 0#12
/-- `sext_21({inst[31], inst[19:12], inst[20], inst[30:21], 0})` (R85). -/
def immJOf (w : Word) : Word :=
  (w.extractLsb' 31 1 ++ w.extractLsb' 12 8 ++ w.extractLsb' 20 1 ++ w.extractLsb' 21 10 ++ 0#1 : BitVec 21).signExtend 32

/-- Why a word is no instruction: the cases of R91. -/
inductive DecodeReject where
  /-- (a) `inst[6:0]` is not in TOP -/
  | opcode
  /-- (b) the opcode's funct3 table has no entry -/
  | funct3
  /-- (c) the funct7 table reached has no entry -/
  | funct7
  /-- (d) a SYSTEM word that is neither ECALL nor EBREAK -/
  | system
  /-- fewer than 4 bytes were given (every instruction is one 32-bit word, R78) -/
  | truncated
  deriving DecidableEq, Repr

/-- The funct3 table of opcode 1100011 (R89). -/
def decodeBranch (w : Word) : Except DecodeReject Instr :=
  if funct3Of w = 0b000#3 then .ok (.beq (rs1Of w) (rs2Of w) (immBOf w))
  else if funct3Of w = 0b001#3 then .ok (.bne (rs1Of w) (rs2Of w) (immBOf w))
  else if funct3Of w = 0b100#3 then .ok (.blt (rs1Of w) (rs2Of w) (immBOf w))
  else if funct3Of w = 0b101#3 then .ok (.bge (rs1Of w) (rs2Of w) (immBOf w))
  else if funct3Of w = 0b110#3 then .ok (.bltu (rs1Of w) (rs2Of w) (immBOf w))
  else if funct3Of w = 0b111#3 then .ok (.bgeu (rs1Of w) (rs2Of w) (immBOf w))
  else .error .funct3

/-- The funct3 table of opcode 0000011 (R89). -/
def decodeLoad (w : Word) : Except DecodeReject Instr :=
  if funct3Of w = 0b000#3 then .ok (.lb (rdOf w) (rs1Of w) (immIOf w))
  else if funct3Of w = 0b001#3 then .ok (.lh (rdOf w) (rs1Of w) (immIOf w))
  else if funct3Of w = 0b010#3 then .ok (.lw (rdOf w) (rs1Of w) (immIOf w))
  else if funct3Of w = 0b100#3 then .ok (.lbu (rdOf w) (rs1Of w) (immIOf w))
  else if funct3Of w = 0b101#3 then .ok (.lhu (rdOf w) (rs1Of w) (immIOf w))
  else .error .funct3

/-- The funct3 table of opcode 0100011 (R89). -/
def decodeStore (w : Word) : Except DecodeReject Instr :=
  if funct3Of w = 0b000#3 then .ok (.sb (rs1Of w) (rs2Of w) (immSOf w))
  else if funct3Of w = 0b001#3 then .ok (.sh (rs1Of w) (rs2Of w) (immSOf w))
  else if funct3Of w = 0b010#3 then .ok (.sw (rs1Of w) (rs2Of w) (immSOf w))
  else .error .funct3

/-- The funct3 table of opcode 0010011, two of whose entries are funct7 tables (R89). -/
def decodeOpImm (w : Word) : Except DecodeReject Instr :=
  if funct3Of w = 0b000#3 then .ok (.addi (rdOf w) (rs1Of w) (immIOf w))
  else if funct3Of w = 0b010#3 then .ok (.slti (rdOf w) (rs1Of w) (immIOf w))
  else if funct3Of w = 0b011#3 then .ok (.sltiu (rdOf w) (rs1Of w) (immIOf w))
  else if funct3Of w = 0b100#3 then .ok (.xori (rdOf w) (rs1Of w) (immIOf w))
  else if funct3Of w = 0b110#3 then .ok (.ori (rdOf w) (rs1Of w) (immIOf w))
  else if funct3Of w = 0b111#3 then .ok (.andi (rdOf w) (rs1Of w) (immIOf w))
  else if funct3Of w = 0b001#3 then
    if funct7Of w = 0b0000000#7 then .ok (.slli (rdOf w) (rs1Of w) (shamtOf w))
    else .error .funct7
  else
    if funct7Of w = 0b0000000#7 then .ok (.srli (rdOf w) (rs1Of w) (shamtOf w))
    else if funct7Of w = 0b0100000#7 then .ok (.srai (rdOf w) (rs1Of w) (shamtOf w))
    else .error .funct7

/-- The column funct7 = 0000000 of opcode 0110011 (R89). -/
def decodeOpBase (w : Word) : Except DecodeReject Instr :=
  if funct3Of w = 0b000#3 then .ok (.add (rdOf w) (rs1Of w) (rs2Of w))
  else if funct3Of w = 0b001#3 then .ok (.sll (rdOf w) (rs1Of w) (rs2Of w))
  else if funct3Of w = 0b010#3 then .ok (.slt (rdOf w) (rs1Of w) (rs2Of w))
  else if funct3Of w = 0b011#3 then .ok (.sltu (rdOf w) (rs1Of w) (rs2Of w))
  else if funct3Of w = 0b100#3 then .ok (.xor (rdOf w) (rs1Of w) (rs2Of w))
  else if funct3Of w = 0b101#3 then .ok (.srl (rdOf w) (rs1Of w) (rs2Of w))
  else if funct3Of w = 0b110#3 then .ok (.or (rdOf w) (rs1Of w) (rs2Of w))
  else .ok (.and (rdOf w) (rs1Of w) (rs2Of w))

/-- The column funct7 = 0100000 of opcode 0110011 (R89). -/
def decodeOpAlt (w : Word) : Except DecodeReject Instr :=
  if funct3Of w = 0b000#3 then .ok (.sub (rdOf w) (rs1Of w) (rs2Of w))
  else if funct3Of w = 0b101#3 then .ok (.sra (rdOf w) (rs1Of w) (rs2Of w))
  else .error .funct7

/-- The column funct7 = 0000001 of opcode 0110011, the M extension (R89). -/
def decodeOpMul (w : Word) : Except DecodeReject Instr :=
  if funct3Of w = 0b000#3 then .ok (.mul (rdOf w) (rs1Of w) (rs2Of w))
  else if funct3Of w = 0b001#3 then .ok (.mulh (rdOf w) (rs1Of w) (rs2Of w))
  else if funct3Of w = 0b010#3 then .ok (.mulhsu (rdOf w) (rs1Of w) (rs2Of w))
  else if funct3Of w = 0b011#3 then .ok (.mulhu (rdOf w) (rs1Of w) (rs2Of w))
  else if funct3Of w = 0b100#3 then .ok (.div (rdOf w) (rs1Of w) (rs2Of w))
  else if funct3Of w = 0b101#3 then .ok (.divu (rdOf w) (rs1Of w) (rs2Of w))
  else if funct3Of w = 0b110#3 then .ok (.rem (rdOf w) (rs1Of w) (rs2Of w))
  else .ok (.remu (rdOf w) (rs1Of w) (rs2Of w))

/-- The tables of opcode 0110011 (R89). -/
def decodeOp (w : Word) : Except DecodeReject Instr :=
  if funct7Of w = 0b0000000#7 then decodeOpBase w
  else if funct7Of w = 0b0100000#7 then decodeOpAlt w
  else if funct7Of w = 0b0000001#7 then decodeOpMul w
  else .error .funct7

/-- The SYSTEM opcode's special case; `rd` and `rs1` are not checked (R90, D7). -/
def decodeSystem (w : Word) : Except DecodeReject Instr :=
  if funct3Of w = 0b000#3 then
    if funct12Of w = 0x000#12 then .ok (.ecall (rdOf w) (rs1Of w))
    else if funct12Of w = 0x001#12 then .ok (.ebreak (rdOf w) (rs1Of w))
    else .error .system
  else .error .system

/-- Decode: the nested lookup of R88 over the tables of R89, total on all words (R98). -/
def decode (w : Word) : Except DecodeReject Instr :=
  if opcodeOf w = 0b0110111#7 then .ok (.lui (rdOf w) (immUOf w))
  else if opcodeOf w = 0b0010111#7 then .ok (.auipc (rdOf w) (immUOf w))
  else if opcodeOf w = 0b1101111#7 then .ok (.jal (rdOf w) (immJOf w))
  else if opcodeOf w = 0b1100111#7 then
    if funct3Of w = 0b000#3 then .ok (.jalr (rdOf w) (rs1Of w) (immIOf w)) else .error .funct3
  else if opcodeOf w = 0b1100011#7 then decodeBranch w
  else if opcodeOf w = 0b0000011#7 then decodeLoad w
  else if opcodeOf w = 0b0100011#7 then decodeStore w
  else if opcodeOf w = 0b0010011#7 then decodeOpImm w
  else if opcodeOf w = 0b0110011#7 then decodeOp w
  else if opcodeOf w = 0b0001111#7 then
    if funct3Of w = 0b000#3 then .ok (.fence (rdOf w) (rs1Of w) (immIOf w)) else .error .funct3
  else if opcodeOf w = 0b1110011#7 then decodeSystem w
  else .error .opcode

/-! Words and bytes: an instruction word is stored little-endian (20_memory.md R62, R78). -/

/-- The four bytes of a word, the least significant first (R62). -/
def wordBytes (w : Word) : List Byte :=
  [w.extractLsb' 0 8, w.extractLsb' 8 8, w.extractLsb' 16 8, w.extractLsb' 24 8]

/-- Decoding from bytes: one instruction and the bytes after it. -/
def decodeBytes : List Byte → Except DecodeReject (Instr × List Byte)
  | b0 :: b1 :: b2 :: b3 :: rest =>
    match decode (b3 ++ b2 ++ b1 ++ b0) with
    | .ok i => .ok (i, rest)
    | .error r => .error r
  | _ => .error .truncated

/-- The instruction the decoder reads from a table word of `nbits` bits: every bit above `nbits` is 0. -/
def decodeTableWord (nbits w : Nat) : Option Instr :=
  match decodeBytes (wordBytes (BitVec.ofNat 32 (w % 2 ^ nbits))) with
  | .ok (i, _) => some i
  | .error _ => none

/-! The encoder, from the layouts of R80 to R86 and the values of R89. -/

/-- R80. -/
def encodeR (funct7 : BitVec 7) (funct3 : BitVec 3) (opcode : BitVec 7) (rd rs1 rs2 : RegIdx) : Word :=
  funct7 ++ rs2 ++ rs1 ++ funct3 ++ rd ++ opcode

/-- R81. -/
def encodeI (imm12 : BitVec 12) (funct3 : BitVec 3) (opcode : BitVec 7) (rd rs1 : RegIdx) : Word :=
  imm12 ++ rs1 ++ funct3 ++ rd ++ opcode

/-- R82. -/
def encodeS (imm : Word) (funct3 : BitVec 3) (opcode : BitVec 7) (rs1 rs2 : RegIdx) : Word :=
  imm.extractLsb' 5 7 ++ rs2 ++ rs1 ++ funct3 ++ imm.extractLsb' 0 5 ++ opcode

/-- R83. -/
def encodeB (imm : Word) (funct3 : BitVec 3) (opcode : BitVec 7) (rs1 rs2 : RegIdx) : Word :=
  imm.extractLsb' 12 1 ++ imm.extractLsb' 5 6 ++ rs2 ++ rs1 ++ funct3 ++ imm.extractLsb' 1 4 ++ imm.extractLsb' 11 1 ++ opcode

/-- R84. -/
def encodeU (imm : Word) (opcode : BitVec 7) (rd : RegIdx) : Word :=
  imm.extractLsb' 12 20 ++ rd ++ opcode

/-- R85. -/
def encodeJ (imm : Word) (opcode : BitVec 7) (rd : RegIdx) : Word :=
  imm.extractLsb' 20 1 ++ imm.extractLsb' 1 10 ++ imm.extractLsb' 11 1 ++ imm.extractLsb' 12 8 ++ rd ++ opcode

/-- The low 12 bits of an I immediate. -/
def imm12Of (imm : Word) : BitVec 12 := imm.extractLsb' 0 12

/-- The word of an instruction; on a well-formed one, the word that decodes to it. -/
def encode : Instr → Word
  | .lui rd imm => encodeU imm 0b0110111 rd
  | .auipc rd imm => encodeU imm 0b0010111 rd
  | .jal rd imm => encodeJ imm 0b1101111 rd
  | .jalr rd rs1 imm => encodeI (imm12Of imm) 0b000 0b1100111 rd rs1
  | .beq rs1 rs2 imm => encodeB imm 0b000 0b1100011 rs1 rs2
  | .bne rs1 rs2 imm => encodeB imm 0b001 0b1100011 rs1 rs2
  | .blt rs1 rs2 imm => encodeB imm 0b100 0b1100011 rs1 rs2
  | .bge rs1 rs2 imm => encodeB imm 0b101 0b1100011 rs1 rs2
  | .bltu rs1 rs2 imm => encodeB imm 0b110 0b1100011 rs1 rs2
  | .bgeu rs1 rs2 imm => encodeB imm 0b111 0b1100011 rs1 rs2
  | .lb rd rs1 imm => encodeI (imm12Of imm) 0b000 0b0000011 rd rs1
  | .lh rd rs1 imm => encodeI (imm12Of imm) 0b001 0b0000011 rd rs1
  | .lw rd rs1 imm => encodeI (imm12Of imm) 0b010 0b0000011 rd rs1
  | .lbu rd rs1 imm => encodeI (imm12Of imm) 0b100 0b0000011 rd rs1
  | .lhu rd rs1 imm => encodeI (imm12Of imm) 0b101 0b0000011 rd rs1
  | .sb rs1 rs2 imm => encodeS imm 0b000 0b0100011 rs1 rs2
  | .sh rs1 rs2 imm => encodeS imm 0b001 0b0100011 rs1 rs2
  | .sw rs1 rs2 imm => encodeS imm 0b010 0b0100011 rs1 rs2
  | .addi rd rs1 imm => encodeI (imm12Of imm) 0b000 0b0010011 rd rs1
  | .slti rd rs1 imm => encodeI (imm12Of imm) 0b010 0b0010011 rd rs1
  | .sltiu rd rs1 imm => encodeI (imm12Of imm) 0b011 0b0010011 rd rs1
  | .xori rd rs1 imm => encodeI (imm12Of imm) 0b100 0b0010011 rd rs1
  | .ori rd rs1 imm => encodeI (imm12Of imm) 0b110 0b0010011 rd rs1
  | .andi rd rs1 imm => encodeI (imm12Of imm) 0b111 0b0010011 rd rs1
  | .slli rd rs1 shamt => encodeR 0b0000000 0b001 0b0010011 rd rs1 shamt
  | .srli rd rs1 shamt => encodeR 0b0000000 0b101 0b0010011 rd rs1 shamt
  | .srai rd rs1 shamt => encodeR 0b0100000 0b101 0b0010011 rd rs1 shamt
  | .add rd rs1 rs2 => encodeR 0b0000000 0b000 0b0110011 rd rs1 rs2
  | .sub rd rs1 rs2 => encodeR 0b0100000 0b000 0b0110011 rd rs1 rs2
  | .sll rd rs1 rs2 => encodeR 0b0000000 0b001 0b0110011 rd rs1 rs2
  | .slt rd rs1 rs2 => encodeR 0b0000000 0b010 0b0110011 rd rs1 rs2
  | .sltu rd rs1 rs2 => encodeR 0b0000000 0b011 0b0110011 rd rs1 rs2
  | .xor rd rs1 rs2 => encodeR 0b0000000 0b100 0b0110011 rd rs1 rs2
  | .srl rd rs1 rs2 => encodeR 0b0000000 0b101 0b0110011 rd rs1 rs2
  | .sra rd rs1 rs2 => encodeR 0b0100000 0b101 0b0110011 rd rs1 rs2
  | .or rd rs1 rs2 => encodeR 0b0000000 0b110 0b0110011 rd rs1 rs2
  | .and rd rs1 rs2 => encodeR 0b0000000 0b111 0b0110011 rd rs1 rs2
  | .mul rd rs1 rs2 => encodeR 0b0000001 0b000 0b0110011 rd rs1 rs2
  | .mulh rd rs1 rs2 => encodeR 0b0000001 0b001 0b0110011 rd rs1 rs2
  | .mulhsu rd rs1 rs2 => encodeR 0b0000001 0b010 0b0110011 rd rs1 rs2
  | .mulhu rd rs1 rs2 => encodeR 0b0000001 0b011 0b0110011 rd rs1 rs2
  | .div rd rs1 rs2 => encodeR 0b0000001 0b100 0b0110011 rd rs1 rs2
  | .divu rd rs1 rs2 => encodeR 0b0000001 0b101 0b0110011 rd rs1 rs2
  | .rem rd rs1 rs2 => encodeR 0b0000001 0b110 0b0110011 rd rs1 rs2
  | .remu rd rs1 rs2 => encodeR 0b0000001 0b111 0b0110011 rd rs1 rs2
  | .fence rd rs1 imm => encodeI (imm12Of imm) 0b000 0b0001111 rd rs1
  | .ecall rd rs1 => encodeI 0x000 0b000 0b1110011 rd rs1
  | .ebreak rd rs1 => encodeI 0x001 0b000 0b1110011 rd rs1

/-! The opcode table, a second view of the encoding: the rows of opcode_table.json, which the decoder above does not read. -/

/-- A row of opcode_table.json. -/
structure OpcodeRow where
  mnemonic : String
  matchBits : Word
  mask : Word
  deriving DecidableEq, Repr

/-- The word is the row's instruction. -/
def OpcodeRow.accepts (r : OpcodeRow) (w : Word) : Bool := w &&& r.mask == r.matchBits

/-- Rows of 40_upper_immediate.md. -/
def rowsUpper : List OpcodeRow :=
  [⟨"LUI", 0x00000037, 0x0000007f⟩,
   ⟨"AUIPC", 0x00000017, 0x0000007f⟩]

/-- Rows of 41_control_transfer.md, jumps. -/
def rowsJump : List OpcodeRow :=
  [⟨"JAL", 0x0000006f, 0x0000007f⟩,
   ⟨"JALR", 0x00000067, 0x0000707f⟩]

/-- Rows of 41_control_transfer.md, branches. -/
def rowsBranch : List OpcodeRow :=
  [⟨"BEQ", 0x00000063, 0x0000707f⟩,
   ⟨"BNE", 0x00001063, 0x0000707f⟩,
   ⟨"BLT", 0x00004063, 0x0000707f⟩,
   ⟨"BGE", 0x00005063, 0x0000707f⟩,
   ⟨"BLTU", 0x00006063, 0x0000707f⟩,
   ⟨"BGEU", 0x00007063, 0x0000707f⟩]

/-- Rows of 42_load_store.md. -/
def rowsMemory : List OpcodeRow :=
  [⟨"LB", 0x00000003, 0x0000707f⟩,
   ⟨"LH", 0x00001003, 0x0000707f⟩,
   ⟨"LW", 0x00002003, 0x0000707f⟩,
   ⟨"LBU", 0x00004003, 0x0000707f⟩,
   ⟨"LHU", 0x00005003, 0x0000707f⟩,
   ⟨"SB", 0x00000023, 0x0000707f⟩,
   ⟨"SH", 0x00001023, 0x0000707f⟩,
   ⟨"SW", 0x00002023, 0x0000707f⟩]

/-- Rows of 43_integer_alu.md, immediate forms. -/
def rowsImmediate : List OpcodeRow :=
  [⟨"ADDI", 0x00000013, 0x0000707f⟩,
   ⟨"SLTI", 0x00002013, 0x0000707f⟩,
   ⟨"SLTIU", 0x00003013, 0x0000707f⟩,
   ⟨"XORI", 0x00004013, 0x0000707f⟩,
   ⟨"ORI", 0x00006013, 0x0000707f⟩,
   ⟨"ANDI", 0x00007013, 0x0000707f⟩,
   ⟨"SLLI", 0x00001013, 0xfe00707f⟩,
   ⟨"SRLI", 0x00005013, 0xfe00707f⟩,
   ⟨"SRAI", 0x40005013, 0xfe00707f⟩]

/-- Rows of 43_integer_alu.md, register forms. -/
def rowsRegister : List OpcodeRow :=
  [⟨"ADD", 0x00000033, 0xfe00707f⟩,
   ⟨"SUB", 0x40000033, 0xfe00707f⟩,
   ⟨"SLL", 0x00001033, 0xfe00707f⟩,
   ⟨"SLT", 0x00002033, 0xfe00707f⟩,
   ⟨"SLTU", 0x00003033, 0xfe00707f⟩,
   ⟨"XOR", 0x00004033, 0xfe00707f⟩,
   ⟨"SRL", 0x00005033, 0xfe00707f⟩,
   ⟨"SRA", 0x40005033, 0xfe00707f⟩,
   ⟨"OR", 0x00006033, 0xfe00707f⟩,
   ⟨"AND", 0x00007033, 0xfe00707f⟩]

/-- Rows of 44_multiply_divide.md. -/
def rowsMulDiv : List OpcodeRow :=
  [⟨"MUL", 0x02000033, 0xfe00707f⟩,
   ⟨"MULH", 0x02001033, 0xfe00707f⟩,
   ⟨"MULHSU", 0x02002033, 0xfe00707f⟩,
   ⟨"MULHU", 0x02003033, 0xfe00707f⟩,
   ⟨"DIV", 0x02004033, 0xfe00707f⟩,
   ⟨"DIVU", 0x02005033, 0xfe00707f⟩,
   ⟨"REM", 0x02006033, 0xfe00707f⟩,
   ⟨"REMU", 0x02007033, 0xfe00707f⟩]

/-- Rows of 45_system.md. -/
def rowsSystem : List OpcodeRow :=
  [⟨"FENCE", 0x0000000f, 0x0000707f⟩,
   ⟨"ECALL", 0x00000073, 0xfff0707f⟩,
   ⟨"EBREAK", 0x00100073, 0xfff0707f⟩]

/-- `opcode_table.json`: a word is the row's instruction exactly when `word &&& mask = matchBits`. -/
def opcodeTable : List OpcodeRow :=
  rowsUpper ++ rowsJump ++ rowsBranch ++ rowsMemory ++ rowsImmediate ++ rowsRegister ++ rowsMulDiv ++ rowsSystem

end Sys2Proof
end

