-- ==== Sys2Proof/Config.lean ====
section
/-! DEFINITION. What one launch of the hardware fixes: the launch parameters of 00_scope.md R10 and R11. They are arguments of
`launch` and of the renderer; a claim quantifies over the ones it does not fix. -/

namespace Sys2Proof

/-- The size of the address space in bytes, 2^32 (R9). -/
def addressSpace : Nat := 4294967296

/-- IMAGE of R10: "Intel HEX text, or a byte map". A byte map gives no entry address (log 12). -/
inductive Image where
  | hex (text : List Char)
  | bytes (map : List (Word × Byte))
  deriving DecidableEq, Repr

/-- The launch parameters of R10, with HEX_VERIFY_CHECKSUM and MEM_LATENCY of R11. -/
structure LaunchParams where
  /-- IMAGE: the launch memory and its start records. -/
  image : Image
  /-- ENTRY_OVERRIDE: the "externally supplied" entry PC (R57, D12). -/
  entryOverride : Option Word := none
  /-- SP_INIT: the launch value of x2 when given (R28). -/
  spInit : Option Word := none
  /-- INIT_REGS: the launch values of x1 to x31; entry k is that of x(k+1) (R56, D11). -/
  initRegs : Vector Word 31
  /-- FUEL: the caller's bound on retired instructions (R47, D15). -/
  fuel : Option Nat := none
  /-- HEX_VERIFY_CHECKSUM: whether the loader checks a record's checksum (R179). -/
  verifyChecksum : Bool := false
  /-- MEM_LATENCY: the nominal latency each memory accessor reports (R77). -/
  memLatency : Nat := 10
  deriving DecidableEq, Repr

/-- How LUI and AUIPC immediates are written in the trace (R164). -/
inductive UpperImmForm where
  /-- `inst[31:12]` in hex -/
  | fieldHex
  /-- `inst[31:12]` in decimal -/
  | fieldDec
  /-- the 32-bit immediate in hex -/
  | valueHex
  deriving DecidableEq, Repr

/-- TRACE_RENDER of R164: the text choices the source does not fix. The defaults are the model's own (log 13). -/
structure TraceRender where
  columnSep : String := " "
  mnemonicUpper : Bool := false
  operandSep : String := ", "
  /-- plain immediates, and with them the offsets of memory operands (log 13), in hex rather than decimal -/
  immHex : Bool := false
  upperImm : UpperImmForm := .fieldHex
  /-- print the aliases of R97 (`nop`, `ret`, …); which of them, `aliasText` says (log 13) -/
  aliases : Bool := false
  /-- write JALR's operands as `imm(reg)` -/
  jalrMem : Bool := true
  /-- upper-case hex digits inside the disassembly -/
  hexUpper : Bool := false
  lineEnd : String := "\n"
  deriving DecidableEq, Repr

end Sys2Proof
end

