-- ==== Sys2Proof/Machine/State.lean ====
section
/-! DEFINITION. The machine's state as plain data (10_state.md R39: exactly X[1..31], pc, mem, run state, retired), the reasons a
step stops, and the state after reset. -/

namespace Sys2Proof.Machine

/-- The fatal errors of 60_exceptions.md R153, each with the information it records. -/
inductive Fault where
  /-- Raised by decode of a fetched word that matches no table entry (R49, R91). Safe: the machine stops, as the spec says. -/
  | decodeError (pc : Word) (inst : Word)
  /-- Raised by no step: the kind is kept in the taxonomy (R155, D23). Safe. -/
  | illegalInstruction (pc : Word) (mnemonic : String)
  /-- Raised by `launch` for a malformed boot image, before any step (R178). Safe. -/
  | loadError (line : Nat)
  /-- Raised by fetch, a load or a store whose bytes pass 0xFFFFFFFF (R66, D4); `width` is in bytes. Safe. -/
  | accessWrap (pc : Word) (addr : Word) (width : Nat)
  deriving DecidableEq, Repr

/-- The run state of 10_state.md R36. -/
inductive RunState where
  /-- the only state that steps -/
  | running
  /-- entered by retiring EBREAK (R53, R152) -/
  | halted
  /-- entered by a fatal error (R153) -/
  | faulted (f : Fault)
  /-- entered when FUEL is exhausted (R47) -/
  | boundReached
  deriving DecidableEq, Repr

/-- Why there is no meaning: not faults of the machine. -/
inductive Refusal where
  /-- Answered by an arm of `exec` whose instruction has no meaning yet; no arm of this model answers it. Safe. -/
  | notModelled (mnemonic : String)
  /-- Answered by `step` in a state that is not Running: "Halted, Faulted and BoundReached have no step" (R36, R47). Safe. -/
  | notRunning (run : RunState)
  /-- Answered by `launch` when neither the host nor the image gives an entry: the launch is refused (R57, D12). Safe. -/
  | noEntry
  deriving DecidableEq, Repr

/-- Memory: the bytes that differ from 0, by rising address (canonical form: `Memory.wf`). An unlisted address reads 0 (R61). -/
abbrev Memory := List Host.Cell

/-- The state of the machine (R39), with the launch parameter FUEL that every step reads (R47; log 3). -/
structure State where
  /-- X[1] .. X[31] (R22, R39); entry k is x(k+1). x0 has no storage (R23). -/
  regs : Vector Word 31
  /-- The program counter, the address the current instruction is fetched from (R29). -/
  pc : Word
  /-- The memory of 20_memory.md R61. -/
  mem : Memory
  /-- The run state (R36). -/
  run : RunState
  /-- The count of retired instructions (R37). -/
  retired : Nat
  /-- The launch parameter FUEL (R10, R47): the model's own field, which no step changes. -/
  fuel : Option Nat
  deriving DecidableEq, Repr

/-- The machine right after reset: a launch with an empty image, ENTRY_OVERRIDE = 0, INIT_REGS = 0, and neither SP_INIT nor FUEL.
Memory, run state and count are the spec's (R58, R59); the registers (log 1), the pc (log 2) and the absent bound (log 3) are
DESIGN CHOICE values for parameters the spec leaves to the launch (R56, R57, R10). -/
def State.reset : State where
  regs := Vector.replicate 31 0
  pc := 0
  mem := []
  run := .running
  retired := 0
  fuel := none

end Sys2Proof.Machine
end

