-- ==== Sys2Proof/Machine/Memory.lean ====
section
/-! DEFINITION. The memory: the total byte map of 20_memory.md R61 as a canonical list, and the little-endian accesses of R62, R63
and R65. Addresses here are natural numbers below 2^32. -/

namespace Sys2Proof.Machine

/-- What an address that is not listed reads as: 0 (R61). -/
def Memory.unlisted : Byte := 0

/-- The canonical form: addresses strictly rising and inside the address space, no entry equal to what an unlisted address reads as. -/
abbrev Memory.wf (m : Memory) : Prop :=
  m.Pairwise (fun c d => c.1 < d.1) ∧ ∀ c ∈ m, c.2 ≠ Memory.unlisted ∧ c.1 < addressSpace

/-- The byte at an address: total, 0 where nothing is listed (R61). -/
def Memory.byte : Memory → Nat → Byte
  | [], _ => Memory.unlisted
  | (k, b) :: rest, a => if k = a then b else Memory.byte rest a

/-- Lists a byte before the first larger address. -/
def Memory.insert : Memory → Nat → Byte → Memory
  | [], a, b => [(a, b)]
  | (k, c) :: rest, a, b => if a < k then (a, b) :: (k, c) :: rest else (k, c) :: Memory.insert rest a b

/-- Writes one byte: the old entry goes, and a byte that differs from the unlisted value is listed. -/
def Memory.setByte (m : Memory) (a : Nat) (b : Byte) : Memory :=
  if b = Memory.unlisted then m.filter (fun c => c.1 != a) else Memory.insert (m.filter (fun c => c.1 != a)) a b

/-- The access widths (R65). -/
inductive Width where
  | byte | half | word
  deriving DecidableEq, Repr

/-- The width in bytes: 1, 2 or 4 (R8). -/
def Width.bytes : Width → Nat
  | .byte => 1
  | .half => 2
  | .word => 4

/-- `MemRead(a, n)`: the sum over k < n of mem[a + k] * 2^(8k) (R62). -/
def Memory.readLE (m : Memory) (a : Nat) : Nat → Nat
  | 0 => 0
  | n + 1 => (m.byte a).toNat + 256 * Memory.readLE m (a + 1) n

/-- `MemWrite(a, n, v)`: mem[a + k] := bits 8k+7 .. 8k of v for k < n (R63). -/
def Memory.writeLE (m : Memory) (a : Nat) : Nat → Word → Memory
  | 0, _ => m
  | n + 1, v => Memory.writeLE (m.setByte a (v.setWidth 8)) (a + 1) n (v >>> 8)

/-- An access that does not cross the top of the address space (R66). -/
def fits (addr : Word) (w : Width) : Bool := decide (addr.toNat + w.bytes ≤ addressSpace)

/-- The value of a read, zero-extended to 32 bits (R62). -/
def Memory.load (m : Memory) (addr : Word) (w : Width) : Word := BitVec.ofNat 32 (m.readLE addr.toNat w.bytes)

/-- A write of the low bytes of a value (R63). -/
def Memory.store (m : Memory) (addr : Word) (w : Width) (v : Word) : Memory := m.writeLE addr.toNat w.bytes v

/-- The read accessor as the host sees it: the value and the nominal latency MEM_LATENCY, which nothing interprets (R41, R77). DESIGN CHOICE
(log 17): it answers nothing where the access crosses the top, for R66 names the fault of fetch, loads and stores alone and the spec gives
no bytes past 0xFFFFFFFF. -/
def readAccessor (p : LaunchParams) (m : Memory) (addr : Word) (w : Width) : Option (Word × Nat) :=
  if fits addr w then some (m.load addr w, p.memLatency) else none

/-- The write accessor as the host sees it (R41, R77); across the top it writes nothing and answers nothing (DESIGN CHOICE, log 17). -/
def writeAccessor (p : LaunchParams) (m : Memory) (addr : Word) (w : Width) (v : Word) : Option (Memory × Nat) :=
  if fits addr w then some (m.store addr w v, p.memLatency) else none

end Sys2Proof.Machine
end

