-- ==== Sys2Proof/Machine/Ops.lean ====
section
/-! DEFINITION. The shared operations: register access, checked memory access, an instruction's effect and its commit, fetch and
decode at the pc, and the entries into the terminal run states. The hardware takes no exception and returns from none
(60_exceptions.md R154, R159); what it has instead is the fatal error of R153, which ends the run. -/

namespace Sys2Proof.Machine

/-- `x[i]` (00_scope.md R15): 0 for x0, else the stored value. -/
def State.readReg (s : State) (r : RegIdx) : Word :=
  if r = 0#5 then 0#32 else (s.regs[r.toNat - 1]?).getD 0#32

/-- `x[i] <- v` (R15): discarded for x0 (R23). -/
def State.writeReg (s : State) (r : RegIdx) (v : Word) : State :=
  if r = 0#5 then s else { s with regs := s.regs.setIfInBounds (r.toNat - 1) v }

/-- The byte of memory at an address. -/
def State.readByte (s : State) (a : Nat) : Byte := s.mem.byte a

/-- The fault of an access across the top of the address space: AccessWrap(pc, addr, n) (R66). -/
def State.wrapFault (s : State) (addr : Word) (w : Width) : Fault := .accessWrap s.pc addr w.bytes

/-- A checked read (R66). -/
def State.loadMem (s : State) (addr : Word) (w : Width) : Except Fault Word :=
  if fits addr w then .ok (s.mem.load addr w) else .error (s.wrapFault addr w)

/-- The effect that an instruction's execution computes (R51). -/
structure Effect where
  /-- the register write `(rd, value)` -/
  regWrite : Option (RegIdx × Word) := none
  /-- the memory write `(addr, n, value)` -/
  memWrite : Option (Word × Width × Word) := none
  /-- the next PC -/
  npc : Word
  /-- the halt flag, which EBREAK alone sets -/
  halt : Bool := false
  deriving DecidableEq, Repr

/-- The register part of a commit. -/
def State.applyRegWrite (s : State) : Option (RegIdx × Word) → State
  | none => s
  | some (r, v) => s.writeReg r v

/-- The memory part of a commit. -/
def State.applyMemWrite (s : State) : Option (Word × Width × Word) → State
  | none => s
  | some (addr, w, v) => { s with mem := s.mem.store addr w v }

/-- The pc, count and run-state part of a commit (R52, R53). -/
def State.advancePc (s : State) (npc : Word) (halt : Bool) : State :=
  { s with pc := npc, retired := s.retired + 1, run := if halt then .halted else s.run }

/-- Commit: the step's effects together (R52), then Halted after EBREAK (R53). -/
def State.commit (s : State) (e : Effect) : State :=
  ((s.applyRegWrite e.regWrite).applyMemWrite e.memWrite).advancePc e.npc e.halt

/-- The default next PC, `(pc + 4) mod 2^32` (R52, R32). -/
def State.nextPc (s : State) : Word := s.pc + 4

/-- Retires with a register write and the default next PC. -/
def State.retireReg (s : State) (rd : RegIdx) (v : Word) : Host.Outcome State Fault Refusal :=
  .next (s.commit { regWrite := some (rd, v), npc := s.nextPc })

/-- Retires a jump: the link `pc + 4` goes to `rd` and the target to the pc (R101, R102). -/
def State.retireLink (s : State) (rd : RegIdx) (target : Word) : Host.Outcome State Fault Refusal :=
  .next (s.commit { regWrite := some (rd, s.nextPc), npc := target })

/-- Retires with a next PC and nothing else. -/
def State.retirePc (s : State) (npc : Word) : Host.Outcome State Fault Refusal :=
  .next (s.commit { npc := npc })

/-- Retires and halts (R152, R53). -/
def State.retireHalt (s : State) : Host.Outcome State Fault Refusal :=
  .next (s.commit { npc := s.nextPc, halt := true })

/-- Retires a load: the value read at `addr`, extended by `ext`, goes to `rd`; AccessWrap commits nothing (R66, R111). -/
def State.retireLoad (s : State) (rd : RegIdx) (addr : Word) (w : Width) (ext : Word → Word) : Host.Outcome State Fault Refusal :=
  match s.loadMem addr w with
  | .ok v => s.retireReg rd (ext v)
  | .error f => .fault f

/-- Retires a store of the low bytes of `v` at `addr`; AccessWrap commits nothing (R66, R111). -/
def State.retireStore (s : State) (addr : Word) (w : Width) (v : Word) : Host.Outcome State Fault Refusal :=
  if fits addr w then .next (s.commit { memWrite := some (addr, w, v), npc := s.nextPc }) else .fault (s.wrapFault addr w)

/-- Fetch: `MemRead(pc, 4)` (R48), checked by R66. -/
def State.fetch (s : State) : Except Fault Word := s.loadMem s.pc .word

/-- Fetch and decode at the pc (R48, R49): the word and its instruction, or the first fault in the order of R158. -/
def State.fetchInstr (s : State) : Except Fault (Word × Instr) :=
  match s.fetch with
  | .error f => .error f
  | .ok w =>
    match decode w with
    | .ok i => .ok (w, i)
    | .error _ => .error (.decodeError s.pc w)

/-- The bound FUEL is exhausted: `retired = FUEL` (R47). -/
def State.boundExhausted (s : State) : Bool := decide (s.fuel = some s.retired)

/-- BoundReached: the run state changes and nothing else (R47). -/
def State.enterBound (s : State) : State := { s with run := .boundReached }

/-- Faulted(f): a fatal error leaves X, mem, pc and retired as they were (R153). -/
def State.enterFaulted (s : State) (f : Fault) : State := { s with run := .faulted f }

end Sys2Proof.Machine
end

