-- ==== Sys2Proof/Machine/Operands.lean ====
section
/-! DEFINITION. The operand forms: effective address, pc-relative target, shift amounts, width extension, and the register fields an
instruction reads and writes. -/

namespace Sys2Proof.Machine

/-- The one addressing mode: `(x[rs1] + imm) mod 2^32` (42_load_store.md R111). -/
def State.effAddr (s : State) (rs1 : RegIdx) (imm : Word) : Word := s.readReg rs1 + imm

/-- A pc-relative value or target: `(pc + imm) mod 2^32` (R100, R101, R103). -/
def State.pcRel (s : State) (imm : Word) : Word := s.pc + imm

/-- The next PC of a branch: the target when taken, else the default (R103 to R108). -/
def State.branchPc (s : State) (taken : Bool) (imm : Word) : Word := if taken then s.pcRel imm else s.nextPc

/-- `sext_8` of a loaded byte (R14). -/
def sext8 (v : Word) : Word := (v.setWidth 8).signExtend 32
/-- `sext_16` of a loaded halfword (R14). -/
def sext16 (v : Word) : Word := (v.setWidth 16).signExtend 32
/-- `zext_8`: a byte read is already zero-extended (R14, R62). -/
def zext8 (v : Word) : Word := (v.setWidth 8).setWidth 32
/-- `zext_16` (R14). -/
def zext16 (v : Word) : Word := (v.setWidth 16).setWidth 32
/-- A word read needs no extension (R114). -/
def fullWord (v : Word) : Word := v

/-- A register shift amount: the low 5 bits of the value, `x[rs2] & 0x1F` (43_integer_alu.md R133, C3). -/
def shiftAmount (b : Word) : Nat := (b.setWidth 5).toNat

end Sys2Proof.Machine

namespace Sys2Proof

/-- The destination register, for the mnemonics of R26 that write one. -/
def Instr.destReg : Instr → Option RegIdx
  | .lui rd _ | .auipc rd _ | .jal rd _ | .jalr rd _ _ => some rd
  | .beq .. | .bne .. | .blt .. | .bge .. | .bltu .. | .bgeu .. => none
  | .lb rd _ _ | .lh rd _ _ | .lw rd _ _ | .lbu rd _ _ | .lhu rd _ _ => some rd
  | .sb .. | .sh .. | .sw .. => none
  | .addi rd _ _ | .slti rd _ _ | .sltiu rd _ _ | .xori rd _ _ | .ori rd _ _ | .andi rd _ _ => some rd
  | .slli rd _ _ | .srli rd _ _ | .srai rd _ _ => some rd
  | .add rd _ _ | .sub rd _ _ | .sll rd _ _ | .slt rd _ _ | .sltu rd _ _ => some rd
  | .xor rd _ _ | .srl rd _ _ | .sra rd _ _ | .or rd _ _ | .and rd _ _ => some rd
  | .mul rd _ _ | .mulh rd _ _ | .mulhsu rd _ _ | .mulhu rd _ _ => some rd
  | .div rd _ _ | .divu rd _ _ | .rem rd _ _ | .remu rd _ _ => some rd
  | .fence .. | .ecall .. | .ebreak .. => none

/-- The first source register, for the mnemonics of R26 that read one. -/
def Instr.srcReg1 : Instr → Option RegIdx
  | .lui .. | .auipc .. | .jal .. => none
  | .jalr _ rs1 _ => some rs1
  | .beq rs1 _ _ | .bne rs1 _ _ | .blt rs1 _ _ | .bge rs1 _ _ | .bltu rs1 _ _ | .bgeu rs1 _ _ => some rs1
  | .lb _ rs1 _ | .lh _ rs1 _ | .lw _ rs1 _ | .lbu _ rs1 _ | .lhu _ rs1 _ => some rs1
  | .sb rs1 _ _ | .sh rs1 _ _ | .sw rs1 _ _ => some rs1
  | .addi _ rs1 _ | .slti _ rs1 _ | .sltiu _ rs1 _ | .xori _ rs1 _ | .ori _ rs1 _ | .andi _ rs1 _ => some rs1
  | .slli _ rs1 _ | .srli _ rs1 _ | .srai _ rs1 _ => some rs1
  | .add _ rs1 _ | .sub _ rs1 _ | .sll _ rs1 _ | .slt _ rs1 _ | .sltu _ rs1 _ => some rs1
  | .xor _ rs1 _ | .srl _ rs1 _ | .sra _ rs1 _ | .or _ rs1 _ | .and _ rs1 _ => some rs1
  | .mul _ rs1 _ | .mulh _ rs1 _ | .mulhsu _ rs1 _ | .mulhu _ rs1 _ => some rs1
  | .div _ rs1 _ | .divu _ rs1 _ | .rem _ rs1 _ | .remu _ rs1 _ => some rs1
  | .fence .. | .ecall .. | .ebreak .. => none

/-- The second source register, for the mnemonics of R26 that read one. -/
def Instr.srcReg2 : Instr → Option RegIdx
  | .lui .. | .auipc .. | .jal .. | .jalr .. => none
  | .beq _ rs2 _ | .bne _ rs2 _ | .blt _ rs2 _ | .bge _ rs2 _ | .bltu _ rs2 _ | .bgeu _ rs2 _ => some rs2
  | .lb .. | .lh .. | .lw .. | .lbu .. | .lhu .. => none
  | .sb _ rs2 _ | .sh _ rs2 _ | .sw _ rs2 _ => some rs2
  | .addi .. | .slti .. | .sltiu .. | .xori .. | .ori .. | .andi .. => none
  | .slli .. | .srli .. | .srai .. => none
  | .add _ _ rs2 | .sub _ _ rs2 | .sll _ _ rs2 | .slt _ _ rs2 | .sltu _ _ rs2 => some rs2
  | .xor _ _ rs2 | .srl _ _ rs2 | .sra _ _ rs2 | .or _ _ rs2 | .and _ _ rs2 => some rs2
  | .mul _ _ rs2 | .mulh _ _ rs2 | .mulhsu _ _ rs2 | .mulhu _ _ rs2 => some rs2
  | .div _ _ rs2 | .divu _ _ rs2 | .rem _ _ rs2 | .remu _ _ rs2 => some rs2
  | .fence .. | .ecall .. | .ebreak .. => none

/-- The data access of a load or a store: its effective address and width (20_memory.md R65, 42_load_store.md R111). -/
def Instr.dataAccess (s : Machine.State) : Instr → Option (Word × Machine.Width)
  | .lui .. | .auipc .. | .jal .. | .jalr .. => none
  | .beq .. | .bne .. | .blt .. | .bge .. | .bltu .. | .bgeu .. => none
  | .lb _ rs1 imm | .lbu _ rs1 imm => some (s.effAddr rs1 imm, .byte)
  | .lh _ rs1 imm | .lhu _ rs1 imm => some (s.effAddr rs1 imm, .half)
  | .lw _ rs1 imm => some (s.effAddr rs1 imm, .word)
  | .sb rs1 _ imm => some (s.effAddr rs1 imm, .byte)
  | .sh rs1 _ imm => some (s.effAddr rs1 imm, .half)
  | .sw rs1 _ imm => some (s.effAddr rs1 imm, .word)
  | .addi .. | .slti .. | .sltiu .. | .xori .. | .ori .. | .andi .. => none
  | .slli .. | .srli .. | .srai .. => none
  | .add .. | .sub .. | .sll .. | .slt .. | .sltu .. | .xor .. | .srl .. | .sra .. | .or .. | .and .. => none
  | .mul .. | .mulh .. | .mulhsu .. | .mulhu .. | .div .. | .divu .. | .rem .. | .remu .. => none
  | .fence .. | .ecall .. | .ebreak .. => none

end Sys2Proof
end

