-- ==== Sys2Proof/Machine/ControlTransfer.lean ====
section
/-! DEFINITION. JAL, JALR and the conditional branches (41_control_transfer.md). No target needs alignment (R109). -/

namespace Sys2Proof.Machine

/-- R101: `x[rd] <- pc + 4; npc <- pc + imm`. -/
def execJal (rd : RegIdx) (imm : Word) (s : State) : Host.Outcome State Fault Refusal :=
  s.retireLink rd (s.pcRel imm)

/-- R102: `x[rd] <- pc + 4; npc <- x[rs1] + imm`, from the old `x[rs1]`; bit 0 of the target is not cleared. -/
def execJalr (rd rs1 : RegIdx) (imm : Word) (s : State) : Host.Outcome State Fault Refusal :=
  s.retireLink rd (s.effAddr rs1 imm)

/-- R103: taken when `x[rs1] = x[rs2]`. -/
def execBeq (rs1 rs2 : RegIdx) (imm : Word) (s : State) : Host.Outcome State Fault Refusal :=
  s.retirePc (s.branchPc (condEq (s.readReg rs1) (s.readReg rs2)) imm)

/-- R104: taken when `x[rs1] ≠ x[rs2]`. -/
def execBne (rs1 rs2 : RegIdx) (imm : Word) (s : State) : Host.Outcome State Fault Refusal :=
  s.retirePc (s.branchPc (!condEq (s.readReg rs1) (s.readReg rs2)) imm)

/-- R105: taken when `signed(x[rs1]) < signed(x[rs2])`. -/
def execBlt (rs1 rs2 : RegIdx) (imm : Word) (s : State) : Host.Outcome State Fault Refusal :=
  s.retirePc (s.branchPc (condLt (s.readReg rs1) (s.readReg rs2)) imm)

/-- R106: taken when `signed(x[rs1]) >= signed(x[rs2])`. -/
def execBge (rs1 rs2 : RegIdx) (imm : Word) (s : State) : Host.Outcome State Fault Refusal :=
  s.retirePc (s.branchPc (!condLt (s.readReg rs1) (s.readReg rs2)) imm)

/-- R107: taken when `unsigned(x[rs1]) < unsigned(x[rs2])`. -/
def execBltu (rs1 rs2 : RegIdx) (imm : Word) (s : State) : Host.Outcome State Fault Refusal :=
  s.retirePc (s.branchPc (condLtu (s.readReg rs1) (s.readReg rs2)) imm)

/-- R108: taken when `unsigned(x[rs1]) >= unsigned(x[rs2])`. -/
def execBgeu (rs1 rs2 : RegIdx) (imm : Word) (s : State) : Host.Outcome State Fault Refusal :=
  s.retirePc (s.branchPc (!condLtu (s.readReg rs1) (s.readReg rs2)) imm)

end Sys2Proof.Machine
end

