-- ==== Sys2Proof/Machine/IntegerAlu.lean ====
section
/-! DEFINITION. The register-immediate and register-register instructions (43_integer_alu.md). Arithmetic wraps modulo 2^32 and writes no flag (R121). -/

namespace Sys2Proof.Machine

/-- R122: `x[rd] <- (x[rs1] + imm) mod 2^32`. -/
def execAddi (rd rs1 : RegIdx) (imm : Word) (s : State) : Host.Outcome State Fault Refusal :=
  s.retireReg rd (s.readReg rs1 + imm)

/-- R123: `x[rd] <- (signed(x[rs1]) < signed(imm)) ? 1 : 0`. -/
def execSlti (rd rs1 : RegIdx) (imm : Word) (s : State) : Host.Outcome State Fault Refusal :=
  s.retireReg rd (setIf (condLt (s.readReg rs1) imm))

/-- R124: `x[rd] <- (unsigned(x[rs1]) < unsigned(imm)) ? 1 : 0`. -/
def execSltiu (rd rs1 : RegIdx) (imm : Word) (s : State) : Host.Outcome State Fault Refusal :=
  s.retireReg rd (setIf (condLtu (s.readReg rs1) imm))

/-- R125: `x[rd] <- x[rs1] ^ imm`. -/
def execXori (rd rs1 : RegIdx) (imm : Word) (s : State) : Host.Outcome State Fault Refusal :=
  s.retireReg rd (s.readReg rs1 ^^^ imm)

/-- R126: `x[rd] <- x[rs1] | imm`. -/
def execOri (rd rs1 : RegIdx) (imm : Word) (s : State) : Host.Outcome State Fault Refusal :=
  s.retireReg rd (s.readReg rs1 ||| imm)

/-- R127: `x[rd] <- x[rs1] & imm`. -/
def execAndi (rd rs1 : RegIdx) (imm : Word) (s : State) : Host.Outcome State Fault Refusal :=
  s.retireReg rd (s.readReg rs1 &&& imm)

/-- R128: `x[rd] <- x[rs1] << shamt`. -/
def execSlli (rd rs1 : RegIdx) (shamt : BitVec 5) (s : State) : Host.Outcome State Fault Refusal :=
  s.retireReg rd (s.readReg rs1 <<< shamt.toNat)

/-- R129: `x[rd] <- x[rs1] >>u shamt`. -/
def execSrli (rd rs1 : RegIdx) (shamt : BitVec 5) (s : State) : Host.Outcome State Fault Refusal :=
  s.retireReg rd (s.readReg rs1 >>> shamt.toNat)

/-- R130: `x[rd] <- x[rs1] >>s shamt`. -/
def execSrai (rd rs1 : RegIdx) (shamt : BitVec 5) (s : State) : Host.Outcome State Fault Refusal :=
  s.retireReg rd ((s.readReg rs1).sshiftRight shamt.toNat)

/-- R131: `x[rd] <- (x[rs1] + x[rs2]) mod 2^32`. -/
def execAdd (rd rs1 rs2 : RegIdx) (s : State) : Host.Outcome State Fault Refusal :=
  s.retireReg rd (s.readReg rs1 + s.readReg rs2)

/-- R132: `x[rd] <- (x[rs1] - x[rs2]) mod 2^32`. -/
def execSub (rd rs1 rs2 : RegIdx) (s : State) : Host.Outcome State Fault Refusal :=
  s.retireReg rd (s.readReg rs1 - s.readReg rs2)

/-- R133: `x[rd] <- x[rs1] << (x[rs2] & 0x1F)`. -/
def execSll (rd rs1 rs2 : RegIdx) (s : State) : Host.Outcome State Fault Refusal :=
  s.retireReg rd (s.readReg rs1 <<< shiftAmount (s.readReg rs2))

/-- R134: `x[rd] <- (signed(x[rs1]) < signed(x[rs2])) ? 1 : 0`. -/
def execSlt (rd rs1 rs2 : RegIdx) (s : State) : Host.Outcome State Fault Refusal :=
  s.retireReg rd (setIf (condLt (s.readReg rs1) (s.readReg rs2)))

/-- R135: `x[rd] <- (unsigned(x[rs1]) < unsigned(x[rs2])) ? 1 : 0`. -/
def execSltu (rd rs1 rs2 : RegIdx) (s : State) : Host.Outcome State Fault Refusal :=
  s.retireReg rd (setIf (condLtu (s.readReg rs1) (s.readReg rs2)))

/-- R136: `x[rd] <- x[rs1] ^ x[rs2]`. -/
def execXor (rd rs1 rs2 : RegIdx) (s : State) : Host.Outcome State Fault Refusal :=
  s.retireReg rd (s.readReg rs1 ^^^ s.readReg rs2)

/-- R137: `x[rd] <- x[rs1] >>u (x[rs2] & 0x1F)`. -/
def execSrl (rd rs1 rs2 : RegIdx) (s : State) : Host.Outcome State Fault Refusal :=
  s.retireReg rd (s.readReg rs1 >>> shiftAmount (s.readReg rs2))

/-- R138: `x[rd] <- x[rs1] >>s (x[rs2] & 0x1F)`. -/
def execSra (rd rs1 rs2 : RegIdx) (s : State) : Host.Outcome State Fault Refusal :=
  s.retireReg rd ((s.readReg rs1).sshiftRight (shiftAmount (s.readReg rs2)))

/-- R139: `x[rd] <- x[rs1] | x[rs2]`. -/
def execOr (rd rs1 rs2 : RegIdx) (s : State) : Host.Outcome State Fault Refusal :=
  s.retireReg rd (s.readReg rs1 ||| s.readReg rs2)

/-- R140: `x[rd] <- x[rs1] & x[rs2]`. -/
def execAnd (rd rs1 rs2 : RegIdx) (s : State) : Host.Outcome State Fault Refusal :=
  s.retireReg rd (s.readReg rs1 &&& s.readReg rs2)

end Sys2Proof.Machine
end

