-- ==== Sys2Proof/Machine/LoadStore.lean ====
section
/-! DEFINITION. The loads and stores (42_load_store.md). `ea` is the effective address of R111. -/

namespace Sys2Proof.Machine

/-- R112: `x[rd] <- sext_8(MemRead(ea, 1))`. -/
def execLb (rd rs1 : RegIdx) (imm : Word) (s : State) : Host.Outcome State Fault Refusal :=
  s.retireLoad rd (s.effAddr rs1 imm) .byte sext8

/-- R113: `x[rd] <- sext_16(MemRead(ea, 2))`. -/
def execLh (rd rs1 : RegIdx) (imm : Word) (s : State) : Host.Outcome State Fault Refusal :=
  s.retireLoad rd (s.effAddr rs1 imm) .half sext16

/-- R114: `x[rd] <- MemRead(ea, 4)`. -/
def execLw (rd rs1 : RegIdx) (imm : Word) (s : State) : Host.Outcome State Fault Refusal :=
  s.retireLoad rd (s.effAddr rs1 imm) .word fullWord

/-- R115: `x[rd] <- zext_8(MemRead(ea, 1))`. -/
def execLbu (rd rs1 : RegIdx) (imm : Word) (s : State) : Host.Outcome State Fault Refusal :=
  s.retireLoad rd (s.effAddr rs1 imm) .byte zext8

/-- R116: `x[rd] <- zext_16(MemRead(ea, 2))`. -/
def execLhu (rd rs1 : RegIdx) (imm : Word) (s : State) : Host.Outcome State Fault Refusal :=
  s.retireLoad rd (s.effAddr rs1 imm) .half zext16

/-- R117: `MemWrite(ea, 1, x[rs2] & 0xFF)`. -/
def execSb (rs1 rs2 : RegIdx) (imm : Word) (s : State) : Host.Outcome State Fault Refusal :=
  s.retireStore (s.effAddr rs1 imm) .byte (s.readReg rs2)

/-- R118: `MemWrite(ea, 2, x[rs2] & 0xFFFF)`. -/
def execSh (rs1 rs2 : RegIdx) (imm : Word) (s : State) : Host.Outcome State Fault Refusal :=
  s.retireStore (s.effAddr rs1 imm) .half (s.readReg rs2)

/-- R119: `MemWrite(ea, 4, x[rs2])`. -/
def execSw (rs1 rs2 : RegIdx) (imm : Word) (s : State) : Host.Outcome State Fault Refusal :=
  s.retireStore (s.effAddr rs1 imm) .word (s.readReg rs2)

end Sys2Proof.Machine
end

