-- ==== Sys2Proof/Machine/MultiplyDivide.lean ====
section
/-! DEFINITION. Multiply and divide (44_multiply_divide.md): exact integer arithmetic, narrowed at the end. No result faults (R149). -/

namespace Sys2Proof.Machine

/-- `floor(p / 2^32) mod 2^32`, the high half of an exact product (R142 to R144). -/
def highHalf (p : Int) : Word := BitVec.ofInt 32 (p / 4294967296)

/-- R141: `(signed(a) * signed(b)) mod 2^32`. -/
def mulLow (a b : Word) : Word := BitVec.ofInt 32 (a.toInt * b.toInt)
/-- R142: the high half of the signed product. -/
def mulHigh (a b : Word) : Word := highHalf (a.toInt * b.toInt)
/-- R143: the high half of signed(a) times unsigned(b). -/
def mulHighSU (a b : Word) : Word := highHalf (a.toInt * (b.toNat : Int))
/-- R144: the high half of the unsigned product. -/
def mulHighU (a b : Word) : Word := highHalf ((a.toNat : Int) * (b.toNat : Int))

/-- The overflow operands of signed division: -2^31 by -1 (R145). -/
def divOverflows (a b : Word) : Bool := a == 0x80000000 && b == 0xFFFFFFFF

/-- R145: division truncating toward zero; the values at b = 0 and at overflow are the spec's decision D10 (log 6). -/
def divSigned (a b : Word) : Word :=
  if b = 0 then 0xFFFFFFFF
  else if divOverflows a b then 0x80000000
  else BitVec.ofInt 32 (a.toInt.tdiv b.toInt)
/-- R146; the value at b = 0 is D10 (log 6). -/
def divUnsigned (a b : Word) : Word := if b = 0 then 0xFFFFFFFF else BitVec.ofNat 32 (a.toNat / b.toNat)
/-- R147: the remainder of the truncating division, with the dividend's sign; b = 0 and overflow are D10 (log 6). -/
def remSigned (a b : Word) : Word :=
  if b = 0 then a
  else if divOverflows a b then 0
  else BitVec.ofInt 32 (a.toInt - b.toInt * a.toInt.tdiv b.toInt)
/-- R148; the value at b = 0 is D10 (log 6). -/
def remUnsigned (a b : Word) : Word := if b = 0 then a else BitVec.ofNat 32 (a.toNat % b.toNat)

/-- R141, MUL. -/
def execMul (rd rs1 rs2 : RegIdx) (s : State) : Host.Outcome State Fault Refusal :=
  s.retireReg rd (mulLow (s.readReg rs1) (s.readReg rs2))

/-- R142, MULH. -/
def execMulh (rd rs1 rs2 : RegIdx) (s : State) : Host.Outcome State Fault Refusal :=
  s.retireReg rd (mulHigh (s.readReg rs1) (s.readReg rs2))

/-- R143, MULHSU: `rs1` is the signed one. -/
def execMulhsu (rd rs1 rs2 : RegIdx) (s : State) : Host.Outcome State Fault Refusal :=
  s.retireReg rd (mulHighSU (s.readReg rs1) (s.readReg rs2))

/-- R144, MULHU. -/
def execMulhu (rd rs1 rs2 : RegIdx) (s : State) : Host.Outcome State Fault Refusal :=
  s.retireReg rd (mulHighU (s.readReg rs1) (s.readReg rs2))

/-- R145, DIV. -/
def execDiv (rd rs1 rs2 : RegIdx) (s : State) : Host.Outcome State Fault Refusal :=
  s.retireReg rd (divSigned (s.readReg rs1) (s.readReg rs2))

/-- R146, DIVU. -/
def execDivu (rd rs1 rs2 : RegIdx) (s : State) : Host.Outcome State Fault Refusal :=
  s.retireReg rd (divUnsigned (s.readReg rs1) (s.readReg rs2))

/-- R147, REM. -/
def execRem (rd rs1 rs2 : RegIdx) (s : State) : Host.Outcome State Fault Refusal :=
  s.retireReg rd (remSigned (s.readReg rs1) (s.readReg rs2))

/-- R148, REMU. -/
def execRemu (rd rs1 rs2 : RegIdx) (s : State) : Host.Outcome State Fault Refusal :=
  s.retireReg rd (remUnsigned (s.readReg rs1) (s.readReg rs2))

end Sys2Proof.Machine
end

