-- ==== Sys2Proof/Machine/System.lean ====
section
/-! DEFINITION. FENCE, ECALL and EBREAK (45_system.md). -/

namespace Sys2Proof.Machine

/-- R150: no effect beyond retiring; the fields are ignored (R94). -/
def execFence (_rd _rs1 : RegIdx) (_imm : Word) (s : State) : Host.Outcome State Fault Refusal :=
  s.retirePc s.nextPc

/-- R151: no effect beyond retiring; ECALL does not trap. -/
def execEcall (_rd _rs1 : RegIdx) (s : State) : Host.Outcome State Fault Refusal :=
  s.retirePc s.nextPc

/-- R152: retires, then the run state becomes Halted. -/
def execEbreak (_rd _rs1 : RegIdx) (s : State) : Host.Outcome State Fault Refusal :=
  s.retireHalt

end Sys2Proof.Machine
end

