-- ==== Sys2Proof/Machine/UpperImmediate.lean ====
section
/-! DEFINITION. LUI and AUIPC (40_upper_immediate.md). -/

namespace Sys2Proof.Machine

/-- R99: `x[rd] <- imm`. -/
def execLui (rd : RegIdx) (imm : Word) (s : State) : Host.Outcome State Fault Refusal :=
  s.retireReg rd imm

/-- R100: `x[rd] <- (pc + imm) mod 2^32`. -/
def execAuipc (rd : RegIdx) (imm : Word) (s : State) : Host.Outcome State Fault Refusal :=
  s.retireReg rd (s.pcRel imm)

end Sys2Proof.Machine
end

