-- ==== Sys2Proof/Machine/Step.lean ====
section
/-! DEFINITION. One step (10_state.md R46): bound, fetch, decode, execute and commit, in the order of 60_exceptions.md R158; and the
placing of an instruction word where the next step fetches. -/

namespace Sys2Proof.Machine

/-- One step. A state that is not Running has none (R36, R47). A fault commits nothing; the state it leaves is
`s.enterFaulted f` (R153; `advance` in Run.lean). -/
def step (s : State) : Host.Outcome State Fault Refusal :=
  match s.run with
  | .running =>
    if s.boundExhausted then .next s.enterBound
    else
      match s.fetchInstr with
      | .ok (_, i) => exec i s
      | .error f => .fault f
  | r => .refused (.notRunning r)

/-- The state made ready to fetch: Running, below its bound, with four bytes at the pc. It changes nothing in a state that already is. -/
def State.readyToFetch (s : State) : State :=
  { s with
    run := .running
    fuel := if s.boundExhausted then none else s.fuel
    pc := if fits s.pc .word then s.pc else 0 }

/-- The state with an instruction word stored where the next step fetches (log 2): it stands for the load of a program. -/
def State.withFetchWord (s : State) (nbits w : Nat) : State :=
  let r := s.readyToFetch
  { r with mem := r.mem.store r.pc .word (BitVec.ofNat 32 (w % 2 ^ nbits)) }

end Sys2Proof.Machine
end

