-- ==== Sys2Proof/Machine/Loader.lean ====
section
/-! DEFINITION. The boot-image loader: Intel HEX text to an entry address and launch memory (70_reset_and_hazards.md R170 to R181). -/

namespace Sys2Proof.Machine

/-- The sixteen hex digits in upper case; a digit's value is its place. The trace writes with the same list. -/
def hexNumerals : List Char := "0123456789ABCDEF".toList

/-- The value of a hex digit, upper or lower case (R180). -/
def hexDigit (c : Char) : Option Nat := hexNumerals.idxOf? c.toUpper

/-- Pairs of hex digits, one byte a pair; none for an odd count or another character (R170, R178). -/
def hexPairs : List Char → Option (List Byte)
  | [] => some []
  | [_] => none
  | a :: b :: rest =>
    match hexDigit a, hexDigit b, hexPairs rest with
    | some x, some y, some bs => some (BitVec.ofNat 8 (16 * x + y) :: bs)
    | _, _, _ => none

/-- The lines of a text, without their line feeds. -/
def textLines : List Char → List (List Char)
  | [] => [[]]
  | c :: cs =>
    match textLines cs with
    | [] => [[c]]
    | l :: ls => if c = '\n' then [] :: l :: ls else (c :: l) :: ls

/-- Leading and trailing white space, a trailing carriage return with it, removed (R180; log 11). -/
def trimLine (l : List Char) : List Char :=
  ((l.dropWhile Char.isWhitespace).reverse.dropWhile Char.isWhitespace).reverse

/-- The loader's state (R171) with the memory map so far. -/
structure LoaderState where
  /-- `base_address` -/
  base : Word := 0
  /-- `entry`, undefined until a start record -/
  entry : Option Word := none
  mem : Memory := []
  deriving DecidableEq, Repr

/-- Places bytes at consecutive addresses modulo 2^32, a later byte over an earlier one (R172, D22). -/
def placeBytes (m : Memory) (addr : Word) : List Byte → Memory
  | [] => m
  | b :: bs => placeBytes (m.setByte addr.toNat b) (addr + 1) bs

/-- The bytes from LL to CC sum to 0 modulo 256 (R179). -/
def checksumOk (bytes : List Byte) : Bool := bytes.foldl (· + ·) 0 == 0

/-- A big-endian 16-bit value (R174 to R176). -/
def be16 (hi lo : Byte) : Word := (hi ++ lo : BitVec 16).setWidth 32

/-- What one record does: a malformed one, the end of file, or the next loader state (R172 to R178). -/
inductive RecordResult where
  | malformed
  | endOfFile
  | continue (st : LoaderState)
  deriving DecidableEq, Repr

/-- The record types (R172 to R177); `dd` is the data field. -/
def applyRecord (st : LoaderState) (aaaa : Word) (tt : Byte) (dd : List Byte) : RecordResult :=
  if tt = 0 then .continue { st with mem := placeBytes st.mem (st.base + aaaa) dd }
  else if tt = 1 then .endOfFile
  else if tt = 2 then
    match dd with
    | [a, b] => .continue { st with base := be16 a b * 16 }
    | _ => .malformed
  else if tt = 3 then
    match dd with
    | [a, b, c, d] => .continue { st with entry := some (be16 a b * 16 + be16 c d) }
    | _ => .malformed
  else if tt = 4 then
    match dd with
    | [a, b] => .continue { st with base := be16 a b <<< 16 }
    | _ => .malformed
  else if tt = 5 then
    match dd with
    | [a, b, c, d] => .continue { st with entry := some (a ++ b ++ c ++ d) }
    | _ => .malformed
  else .malformed

/-- The bytes of a record: at least 5 and exactly LL + 5 (R170, R178), and the checksum when it is verified (R179). -/
def recordBytes (verify : Bool) (st : LoaderState) : List Byte → RecordResult
  | ll :: a1 :: a0 :: tt :: rest =>
    if rest.length = ll.toNat + 1 ∧ (verify = true → checksumOk (ll :: a1 :: a0 :: tt :: rest) = true) then
      applyRecord st (be16 a1 a0) tt rest.dropLast
    else .malformed
  | _ => .malformed

/-- One trimmed line that is not empty (R170, R178). -/
def recordLine (verify : Bool) (st : LoaderState) : List Char → RecordResult
  | ':' :: ds =>
    match hexPairs ds with
    | some bs => recordBytes verify st bs
    | none => .malformed
  | _ => .malformed

/-- The records in text order; `line` numbers the text's lines from 1 (log 10). An empty line is skipped (R180), a 01 record stops the
reading, and a text without one ends at its last line (R173). -/
def loadLines (verify : Bool) (st : LoaderState) (line : Nat) : List (List Char) → Except Nat LoaderState
  | [] => .ok st
  | l :: ls =>
    if trimLine l = [] then loadLines verify st (line + 1) ls
    else
      match recordLine verify st (trimLine l) with
      | .malformed => .error line
      | .endOfFile => .ok st
      | .continue st' => loadLines verify st' (line + 1) ls

/-- The loader: `(entry, memory map)`, or the failing line (R178, R181). -/
def loadHex (verify : Bool) (text : List Char) : Except Nat (Option Word × Memory) :=
  match loadLines verify {} 1 (textLines text) with
  | .ok st => .ok (st.entry, st.mem)
  | .error line => .error line

/-- A byte map placed in order (log 12). -/
def placeMap (m : Memory) : List (Word × Byte) → Memory
  | [] => m
  | (a, b) :: rest => placeMap (m.setByte a.toNat b) rest

/-- The launch memory and the image's entry (R58, R169). -/
def loadImage (verify : Bool) : Image → Except Nat (Option Word × Memory)
  | .hex text => loadHex verify text
  | .bytes map => .ok (none, placeMap [] map)

end Sys2Proof.Machine
end

