-- ==== Sys2Proof/Machine/Launch.lean ====
section
/-! DEFINITION. The launch: the state a run starts from, built from the launch parameters (10_state.md R55 to R59, R169). -/

namespace Sys2Proof.Machine

/-- X[1..31] at launch: INIT_REGS, with x2 at SP_INIT when that is given (R28, R56). -/
def launchRegs (p : LaunchParams) : Vector Word 31 :=
  match p.spInit with
  | some sp => p.initRegs.set 1 sp
  | none => p.initRegs

/-- The entry PC: ENTRY_OVERRIDE when given, else the image's last start record (R57, R177). -/
def launchEntry (p : LaunchParams) (imageEntry : Option Word) : Option Word :=
  match p.entryOverride with
  | some pc => some pc
  | none => imageEntry

/-- The launch: LoadError(line) for a malformed image, a refusal when there is no entry (R57), else the launched state. -/
def launch (p : LaunchParams) : Host.Outcome State Fault Refusal :=
  match loadImage p.verifyChecksum p.image with
  | .error line => .fault (.loadError line)
  | .ok (imageEntry, mem) =>
    match launchEntry p imageEntry with
    | none => .refused .noEntry
    | some pc => .next { regs := launchRegs p, pc := pc, mem := mem, run := .running, retired := 0, fuel := p.fuel }

end Sys2Proof.Machine
end

