-- ==== Sys2Proof/Machine/Run.lean ====
section
/-! DEFINITION. A run: the state after each step, Faulted states included (10_state.md R36, 60_exceptions.md R153), and its end
(70_reset_and_hazards.md R182). -/

namespace Sys2Proof.Machine

/-- The state a step leaves: the next one, Faulted(f) after a fatal error (R153), or the same where there is no step (R36). -/
def advance (s : State) : State :=
  match step s with
  | .next t => t
  | .fault f => s.enterFaulted f
  | .refused _ => s

/-- The state after at most `n` steps. -/
def runFor : Nat → State → State
  | 0, s => s
  | n + 1, s => runFor n (advance s)

/-- The run has ended: its state is not Running (R182). -/
def State.ended (s : State) : Bool := decide (s.run ≠ .running)

end Sys2Proof.Machine
end

