-- ==== Sys2Proof/Machine/Trace.lean ====
section
/-! DEFINITION. The retirement trace (60_exceptions.md R160 to R164): the record each retired instruction emits and its text. A record
is a function of the state its step starts in, for it "holds no state across steps" (R39; log 9). -/

namespace Sys2Proof.Machine

/-- A retire record (R160). -/
structure RetireRecord where
  /-- "PC at fetch time" -/
  pc : Word
  /-- the raw word -/
  inst : Word
  /-- the touched registers, in the order rd, rs1, rs2, each with its value (R161, R162) -/
  touched : List (RegIdx × Word)
  /-- the DecodedInstruction -/
  decoded : Instr
  deriving DecidableEq, Repr

/-- The touched registers: rd with its value after commit, rs1 and rs2 with their values before the step's writes (R161, R162). -/
def touchedRegs (i : Instr) (before after : State) : List (RegIdx × Word) :=
  (i.destReg.map (fun r => (r, after.readReg r))).toList ++ (i.srcReg1.map (fun r => (r, before.readReg r))).toList
    ++ (i.srcReg2.map (fun r => (r, before.readReg r))).toList

/-- The record the step from `s` emits: none when it retires nothing (R43, R153, R160). -/
def retireRecord (s : State) : Option RetireRecord :=
  match s.run with
  | .running =>
    if s.boundExhausted then none
    else
      match s.fetchInstr with
      | .error _ => none
      | .ok (w, i) =>
        match exec i s with
        | .next t => some { pc := s.pc, inst := w, touched := touchedRegs i s t, decoded := i }
        | _ => none
  | _ => none

/-- The records of at most `n` steps, in retirement order (R43). -/
def runRecords : Nat → State → List RetireRecord
  | 0, _ => []
  | n + 1, s => (retireRecord s).toList ++ runRecords n (advance s)

/-! Text. -/

/-- One hex digit, in the case asked for. -/
def hexChar (upper : Bool) (d : Nat) : Char :=
  let c := hexNumerals.getD d '0'
  if upper then c else c.toLower

/-- The low `n` hex digits of a number, the most significant first. -/
def hexDigits (upper : Bool) : Nat → Nat → List Char
  | 0, _ => []
  | n + 1, v => hexDigits upper n (v / 16) ++ [hexChar upper (v % 16)]

/-- 8 upper-case hex digits (R163). -/
def hex8 (w : Word) : String := String.ofList (hexDigits true 8 w.toNat)

/-- Hex digits without leading zeros, at least one. -/
def hexShort (upper : Bool) (v : Nat) : String :=
  match (hexDigits upper 8 v).dropWhile (· = '0') with
  | [] => "0"
  | ds => String.ofList ds

/-- Two decimal digits (R163). -/
def dec2 (n : Nat) : String := String.ofList [Char.ofNat (n / 10 % 10 + 48), Char.ofNat (n % 10 + 48)]

/-- The ABI names, in index order (10_state.md R24). -/
def abiNames : List String :=
  ["zero", "ra", "sp", "gp", "tp", "t0", "t1", "t2", "s0", "s1", "a0", "a1", "a2", "a3", "a4", "a5"] ++
  ["a6", "a7", "s2", "s3", "s4", "s5", "s6", "s7", "s8", "s9", "s10", "s11", "t3", "t4", "t5", "t6"]

/-- The ABI name of a register (R24). -/
def abiName (r : RegIdx) : String := (abiNames[r.toNat]?).getD ""

/-- A plain immediate, signed decimal or signed hex (R164; log 13). -/
def renderImm (o : TraceRender) (imm : Word) : String :=
  let sign := if imm.toInt < 0 then "-" else ""
  if o.immHex then sign ++ "0x" ++ hexShort o.hexUpper imm.toInt.natAbs else sign ++ Nat.repr imm.toInt.natAbs

/-- A memory operand, `imm(reg)` (R163). DESIGN CHOICE (log 13): no rule gives the offset's radix; it is written as a plain immediate, so
`immHex` decides it too. -/
def renderMem (o : TraceRender) (rs1 : RegIdx) (imm : Word) : String := renderImm o imm ++ "(" ++ abiName rs1 ++ ")"

/-- A branch or JAL target, an absolute hex address (R163). -/
def renderTarget (o : TraceRender) (pc imm : Word) : String := "0x" ++ hexShort o.hexUpper (pc + imm).toNat

/-- A shift amount, `0x<hex>` (R163). -/
def renderShamt (o : TraceRender) (shamt : BitVec 5) : String := "0x" ++ hexShort o.hexUpper shamt.toNat

/-- A LUI or AUIPC immediate (R164; log 13). -/
def renderUpper (o : TraceRender) (imm : Word) : String :=
  match o.upperImm with
  | .fieldHex => "0x" ++ hexShort o.hexUpper (imm.toNat / 4096)
  | .fieldDec => Nat.repr (imm.toNat / 4096)
  | .valueHex => "0x" ++ hexShort o.hexUpper imm.toNat

/-- The operand list of an instruction at `pc`, in assembler order (R96, R163). -/
def operandList (o : TraceRender) (pc : Word) : Instr → List String
  | .lui rd imm | .auipc rd imm => [abiName rd, renderUpper o imm]
  | .jal rd imm => [abiName rd, renderTarget o pc imm]
  | .jalr rd rs1 imm =>
    if o.jalrMem then [abiName rd, renderMem o rs1 imm] else [abiName rd, abiName rs1, renderImm o imm]
  | .beq rs1 rs2 imm | .bne rs1 rs2 imm | .blt rs1 rs2 imm => [abiName rs1, abiName rs2, renderTarget o pc imm]
  | .bge rs1 rs2 imm | .bltu rs1 rs2 imm | .bgeu rs1 rs2 imm => [abiName rs1, abiName rs2, renderTarget o pc imm]
  | .lb rd rs1 imm | .lh rd rs1 imm | .lw rd rs1 imm | .lbu rd rs1 imm | .lhu rd rs1 imm => [abiName rd, renderMem o rs1 imm]
  | .sb rs1 rs2 imm | .sh rs1 rs2 imm | .sw rs1 rs2 imm => [abiName rs2, renderMem o rs1 imm]
  | .addi rd rs1 imm | .slti rd rs1 imm | .sltiu rd rs1 imm => [abiName rd, abiName rs1, renderImm o imm]
  | .xori rd rs1 imm | .ori rd rs1 imm | .andi rd rs1 imm => [abiName rd, abiName rs1, renderImm o imm]
  | .slli rd rs1 shamt | .srli rd rs1 shamt | .srai rd rs1 shamt => [abiName rd, abiName rs1, renderShamt o shamt]
  | .add rd rs1 rs2 | .sub rd rs1 rs2 | .sll rd rs1 rs2 | .slt rd rs1 rs2 | .sltu rd rs1 rs2 => [abiName rd, abiName rs1, abiName rs2]
  | .xor rd rs1 rs2 | .srl rd rs1 rs2 | .sra rd rs1 rs2 | .or rd rs1 rs2 | .and rd rs1 rs2 => [abiName rd, abiName rs1, abiName rs2]
  | .mul rd rs1 rs2 | .mulh rd rs1 rs2 | .mulhsu rd rs1 rs2 | .mulhu rd rs1 rs2 => [abiName rd, abiName rs1, abiName rs2]
  | .div rd rs1 rs2 | .divu rd rs1 rs2 | .rem rd rs1 rs2 | .remu rd rs1 rs2 => [abiName rd, abiName rs1, abiName rs2]
  | .fence .. | .ecall .. | .ebreak .. => []

/-- Mnemonic and operands, by an alias of 30_encoding.md R97. DESIGN CHOICE (log 13): the spec leaves which aliases print to TRACE_RENDER
(R164, D19). The model prints the single-instruction forms but for five: `bgt`, `ble`, `bgtu` and `bleu`, whose words keep the
mnemonics BLT, BGE, BLTU and BGEU (a swap of operands would rename every such branch), and `fence`, for FENCE already prints without
operands. Where two forms fit, the first listed here prints. -/
def aliasText (o : TraceRender) (pc : Word) : Instr → Option (String × List String)
  | .addi rd rs1 imm =>
    if rd = 0 ∧ rs1 = 0 ∧ imm = 0 then some ("NOP", [])
    else if rs1 = 0 then some ("LI", [abiName rd, renderImm o imm])
    else if imm = 0 then some ("MV", [abiName rd, abiName rs1]) else none
  | .xori rd rs1 imm => if imm = BitVec.allOnes 32 then some ("NOT", [abiName rd, abiName rs1]) else none
  | .sub rd rs1 rs2 => if rs1 = 0 then some ("NEG", [abiName rd, abiName rs2]) else none
  | .sltiu rd rs1 imm => if imm = 1 then some ("SEQZ", [abiName rd, abiName rs1]) else none
  | .sltu rd rs1 rs2 => if rs1 = 0 then some ("SNEZ", [abiName rd, abiName rs2]) else none
  | .slt rd rs1 rs2 =>
    if rs2 = 0 then some ("SLTZ", [abiName rd, abiName rs1])
    else if rs1 = 0 then some ("SGTZ", [abiName rd, abiName rs2]) else none
  | .beq rs1 rs2 imm => if rs2 = 0 then some ("BEQZ", [abiName rs1, renderTarget o pc imm]) else none
  | .bne rs1 rs2 imm => if rs2 = 0 then some ("BNEZ", [abiName rs1, renderTarget o pc imm]) else none
  | .bge rs1 rs2 imm =>
    if rs2 = 0 then some ("BGEZ", [abiName rs1, renderTarget o pc imm])
    else if rs1 = 0 then some ("BLEZ", [abiName rs2, renderTarget o pc imm]) else none
  | .blt rs1 rs2 imm =>
    if rs2 = 0 then some ("BLTZ", [abiName rs1, renderTarget o pc imm])
    else if rs1 = 0 then some ("BGTZ", [abiName rs2, renderTarget o pc imm]) else none
  | .jal rd imm =>
    if rd = 0 then some ("J", [renderTarget o pc imm])
    else if rd = 1 then some ("JAL", [renderTarget o pc imm]) else none
  | .jalr rd rs1 imm =>
    if imm = 0 ∧ rd = 0 ∧ rs1 = 1 then some ("RET", [])
    else if imm = 0 ∧ rd = 0 then some ("JR", [abiName rs1])
    else if imm = 0 ∧ rd = 1 then some ("JALR", [abiName rs1]) else none
  | _ => none

/-- A string right-padded to 8 columns (R163). -/
def pad8 (s : String) : String := s ++ String.ofList (List.replicate (8 - s.length) ' ')

/-- ASCII lower case. -/
def lower (s : String) : String := String.ofList (s.toList.map Char.toLower)

/-- `<mnemonic right-padded to 8 columns> <operand list>` (R163). -/
def disassemble (o : TraceRender) (pc : Word) (i : Instr) : String :=
  let plain := (i.mnemonic, operandList o pc i)
  let text := if o.aliases then (aliasText o pc i).getD plain else plain
  pad8 (if o.mnemonicUpper then text.1 else lower text.1) ++ " " ++ o.operandSep.intercalate text.2

/-- The fixed parts of a line, in order: the pc, the word, and each touched register (R163). -/
def RetireRecord.fixedParts (r : RetireRecord) : List String :=
  ["PC=" ++ hex8 r.pc, "[" ++ hex8 r.inst ++ "]"] ++
    r.touched.map (fun c => "x" ++ dec2 c.1.toNat ++ "=" ++ hex8 c.2)

/-- The text line of a record (R163, R164). -/
def RetireRecord.render (o : TraceRender) (r : RetireRecord) : String :=
  o.columnSep.intercalate (r.fixedParts ++ [disassemble o r.pc r.decoded]) ++ o.lineEnd

end Sys2Proof.Machine
end

