-- ==== Sys2Proof/Safety.lean ====
section
/-! DEFINITION. What counts as a safe run: the machine's invariant, a run without a fatal error, and the one normal end
(70_reset_and_hazards.md R182). -/

namespace Sys2Proof.Machine

/-- The invariant: memory is in its canonical form and inside the address space; the count never passes FUEL; a state at BoundReached has
exactly exhausted it (R47); a Halted state has retired at least the EBREAK that halted it (R53). -/
def State.Inv (s : State) : Prop :=
  s.mem.wf ∧ (∀ n, s.fuel = some n → s.retired ≤ n) ∧ (s.run = .boundReached → s.fuel = some s.retired) ∧
    (s.run = .halted → 0 < s.retired)

/-- No fatal error within `n` steps (R153). -/
def FaultFree (n : Nat) (s : State) : Prop := ∀ k, k ≤ n → ∀ f, (runFor k s).run ≠ .faulted f

/-- The run reaches its one normal end, Halted (R182). -/
def HaltsNormally (s : State) : Prop := ∃ n, (runFor n s).run = .halted

end Sys2Proof.Machine
end

