-- ==== Sys2Proof/Certificates/Slice0/Obligations.lean ====
section
/-! DEFINITION. The statements for the provers: what spec/ says the instructions and the machine do. A docstring names the rule a
statement formalises, and every clause that rests on a decision of the spec or a choice of the model. -/

namespace Sys2Proof.Spec

open Sys2Proof.Machine

/-! Words of the statements. -/

/-- Every register reads as before. -/
def SameRegs (s t : State) : Prop := ∀ r, t.readReg r = s.readReg r

/-- Every byte of memory reads as before. -/
def SameMem (s t : State) : Prop := ∀ a, t.readByte a = s.readByte a

/-- Register `rd` holds `v` (x0: nothing is written and it reads 0), and every other register reads as before. -/
def OnlyReg (s t : State) (rd : RegIdx) (v : Word) : Prop :=
  t.readReg 0 = 0 ∧ (rd ≠ 0 → t.readReg rd = v) ∧ ∀ r, r ≠ rd → t.readReg r = s.readReg r

/-- Retired: the next pc, one more instruction counted, the run state and the bound as before. -/
def RetiresTo (s t : State) (npc : Word) : Prop :=
  t.pc = npc ∧ t.retired = s.retired + 1 ∧ t.run = s.run ∧ t.fuel = s.fuel

/-- `i` runs from `s`: it writes `v` to `rd`, changes no other register and no byte of memory, and goes to `npc`. -/
def Gives (i : Instr) (s : State) (rd : RegIdx) (v npc : Word) : Prop :=
  ∃ t, exec i s = .next t ∧ OnlyReg s t rd v ∧ SameMem s t ∧ RetiresTo s t npc

/-- `i` runs from `s`, changes no register and no byte of memory, and goes to `npc`. -/
def GoesTo (i : Instr) (s : State) (npc : Word) : Prop :=
  ∃ t, exec i s = .next t ∧ SameRegs s t ∧ SameMem s t ∧ RetiresTo s t npc

/-- `i` runs from `s` as a store of the `n` low bytes of `v` at `ea`: those bytes hold `v` low first, every other byte and every register
reads as before. -/
def Stores (i : Instr) (s : State) (ea : Word) (n : Nat) (v : Word) : Prop :=
  ∃ t, exec i s = .next t ∧ SameRegs s t ∧ RetiresTo s t (s.pc + 4) ∧
    (∀ k, k < n → t.readByte (ea.toNat + k) = v.extractLsb' (8 * k) 8) ∧
    ∀ a, a < ea.toNat ∨ ea.toNat + n ≤ a → t.readByte a = s.readByte a

/-! The `Decodes…` clauses take opcode, funct3 and funct7 from the rule each statement names; the spec marks those numbers as its decision
D2 (log 5). -/

/-- The I-format words of an opcode and funct3 are the instruction, with its fields (R79, R81). -/
def DecodesI (op : BitVec 7) (f3 : BitVec 3) (mk : RegIdx → RegIdx → Word → Instr) : Prop :=
  ∀ w : Word, w.extractLsb' 0 7 = op → w.extractLsb' 12 3 = f3 →
    decode w = .ok (mk (w.extractLsb' 7 5) (w.extractLsb' 15 5) ((w.extractLsb' 20 12).signExtend 32))

/-- The shift-immediate words of a funct3 and funct7 under opcode 0010011 (R86). -/
def DecodesShift (f3 : BitVec 3) (f7 : BitVec 7) (mk : RegIdx → RegIdx → BitVec 5 → Instr) : Prop :=
  ∀ w : Word, w.extractLsb' 0 7 = 0b0010011#7 → w.extractLsb' 12 3 = f3 → w.extractLsb' 25 7 = f7 →
    decode w = .ok (mk (w.extractLsb' 7 5) (w.extractLsb' 15 5) (w.extractLsb' 20 5))

/-- The R-format words of a funct3 and funct7 under opcode 0110011 (R79, R80). -/
def DecodesR (f3 : BitVec 3) (f7 : BitVec 7) (mk : RegIdx → RegIdx → RegIdx → Instr) : Prop :=
  ∀ w : Word, w.extractLsb' 0 7 = 0b0110011#7 → w.extractLsb' 12 3 = f3 → w.extractLsb' 25 7 = f7 →
    decode w = .ok (mk (w.extractLsb' 7 5) (w.extractLsb' 15 5) (w.extractLsb' 20 5))

/-- The S-format words of a funct3 under opcode 0100011 (R82). -/
def DecodesS (f3 : BitVec 3) (mk : RegIdx → RegIdx → Word → Instr) : Prop :=
  ∀ w : Word, w.extractLsb' 0 7 = 0b0100011#7 → w.extractLsb' 12 3 = f3 →
    decode w = .ok (mk (w.extractLsb' 15 5) (w.extractLsb' 20 5)
      ((w.extractLsb' 25 7 ++ w.extractLsb' 7 5 : BitVec 12).signExtend 32))

/-- The B-format words of a funct3 under opcode 1100011 (R83). -/
def DecodesB (f3 : BitVec 3) (mk : RegIdx → RegIdx → Word → Instr) : Prop :=
  ∀ w : Word, w.extractLsb' 0 7 = 0b1100011#7 → w.extractLsb' 12 3 = f3 →
    decode w = .ok (mk (w.extractLsb' 15 5) (w.extractLsb' 20 5)
      ((w.extractLsb' 31 1 ++ w.extractLsb' 7 1 ++ w.extractLsb' 25 6 ++ w.extractLsb' 8 4 ++ 0#1 : BitVec 13).signExtend 32))

/-- The U-format words of an opcode (R84). -/
def DecodesU (op : BitVec 7) (mk : RegIdx → Word → Instr) : Prop :=
  ∀ w : Word, w.extractLsb' 0 7 = op → decode w = .ok (mk (w.extractLsb' 7 5) (w.extractLsb' 12 20 ++ 0#12))

/-- A register-immediate instruction: its words, and its result `f(x[rs1], imm)`. -/
def ImmRule (f3 : BitVec 3) (mk : RegIdx → RegIdx → Word → Instr) (f : Word → Word → Word) : Prop :=
  DecodesI 0b0010011#7 f3 mk ∧ ∀ rd rs1 imm s, Gives (mk rd rs1 imm) s rd (f (s.readReg rs1) imm) (s.pc + 4)

/-- A shift-immediate instruction: its words, and its result `f(x[rs1], shamt)`. -/
def ShiftRule (f3 : BitVec 3) (f7 : BitVec 7) (mk : RegIdx → RegIdx → BitVec 5 → Instr) (f : Word → Nat → Word) : Prop :=
  DecodesShift f3 f7 mk ∧ ∀ rd rs1 shamt s, Gives (mk rd rs1 shamt) s rd (f (s.readReg rs1) shamt.toNat) (s.pc + 4)

/-- A register-register instruction: its words, and its result `f(x[rs1], x[rs2])` from the values before the step. -/
def RegRule (f3 : BitVec 3) (f7 : BitVec 7) (mk : RegIdx → RegIdx → RegIdx → Instr) (f : Word → Word → Word) : Prop :=
  DecodesR f3 f7 mk ∧ ∀ rd rs1 rs2 s, Gives (mk rd rs1 rs2) s rd (f (s.readReg rs1) (s.readReg rs2)) (s.pc + 4)

/-- A branch: its words, and the target when the condition holds, else the default. -/
def BranchRule (f3 : BitVec 3) (mk : RegIdx → RegIdx → Word → Instr) (taken : Word → Word → Prop) : Prop :=
  DecodesB f3 mk ∧ ∀ rs1 rs2 imm s,
    (taken (s.readReg rs1) (s.readReg rs2) → GoesTo (mk rs1 rs2 imm) s (s.pc + imm)) ∧
    (¬ taken (s.readReg rs1) (s.readReg rs2) → GoesTo (mk rs1 rs2 imm) s (s.pc + 4))

/-- The halfword at an address, little-endian. -/
def half (s : State) (ea : Word) : BitVec 16 := s.readByte (ea.toNat + 1) ++ s.readByte ea.toNat

/-- The word at an address, little-endian. -/
def word (s : State) (ea : Word) : Word :=
  s.readByte (ea.toNat + 3) ++ s.readByte (ea.toNat + 2) ++ s.readByte (ea.toNat + 1) ++ s.readByte ea.toNat

/-- A step from `s` fetches: the state is Running and its bound is not exhausted. -/
def Steps (s : State) : Prop := s.run = .running ∧ s.fuel ≠ some s.retired

/-! The tables of 30_encoding.md R89, as R91 reads them. -/

/-- The opcodes of TOP. -/
def topOpcodes : List (BitVec 7) :=
  [0b0110111, 0b0010111, 0b1101111, 0b1100111, 0b1100011, 0b0000011, 0b0100011, 0b0010011, 0b0110011, 0b0001111, 0b1110011]

/-- The funct3 table of an opcode, where its entry is one; opcode 1110011 is the special case of R90. -/
def funct3Table (op : BitVec 7) : Option (List (BitVec 3)) :=
  if op = 0b1100111 then some [0b000]
  else if op = 0b1100011 then some [0b000, 0b001, 0b100, 0b101, 0b110, 0b111]
  else if op = 0b0000011 then some [0b000, 0b001, 0b010, 0b100, 0b101]
  else if op = 0b0100011 then some [0b000, 0b001, 0b010]
  else if op = 0b0010011 then some [0b000, 0b001, 0b010, 0b011, 0b100, 0b101, 0b110, 0b111]
  else if op = 0b0110011 then some [0b000, 0b001, 0b010, 0b011, 0b100, 0b101, 0b110, 0b111]
  else if op = 0b0001111 then some [0b000]
  else none

/-- The funct7 table of an opcode and funct3, where the entry is one. -/
def funct7Table (op : BitVec 7) (f3 : BitVec 3) : Option (List (BitVec 7)) :=
  if op = 0b0010011 ∧ f3 = 0b001 then some [0b0000000]
  else if op = 0b0010011 ∧ f3 = 0b101 then some [0b0000000, 0b0100000]
  else if op = 0b0110011 ∧ (f3 = 0b000 ∨ f3 = 0b101) then some [0b0000000, 0b0100000, 0b0000001]
  else if op = 0b0110011 then some [0b0000000, 0b0000001]
  else none

/-- The cases (a) to (d) of R91. -/
def Illegal (w : Word) : Prop :=
  w.extractLsb' 0 7 ∉ topOpcodes ∨
  (∃ t, funct3Table (w.extractLsb' 0 7) = some t ∧ w.extractLsb' 12 3 ∉ t) ∨
  (∃ t, funct7Table (w.extractLsb' 0 7) (w.extractLsb' 12 3) = some t ∧ w.extractLsb' 25 7 ∉ t) ∨
  (w.extractLsb' 0 7 = 0b1110011#7 ∧ (w.extractLsb' 12 3 ≠ 0b000#3 ∨ (w.extractLsb' 20 12 ≠ 0#12 ∧ w.extractLsb' 20 12 ≠ 1#12)))

/-- Whether an instruction is a branch that is taken in a state (R103 to R108). -/
def Taken (s : State) : Instr → Prop
  | .beq rs1 rs2 _ => s.readReg rs1 = s.readReg rs2
  | .bne rs1 rs2 _ => s.readReg rs1 ≠ s.readReg rs2
  | .blt rs1 rs2 _ => (s.readReg rs1).toInt < (s.readReg rs2).toInt
  | .bge rs1 rs2 _ => (s.readReg rs1).toInt ≥ (s.readReg rs2).toInt
  | .bltu rs1 rs2 _ => (s.readReg rs1).toNat < (s.readReg rs2).toNat
  | .bgeu rs1 rs2 _ => (s.readReg rs1).toNat ≥ (s.readReg rs2).toNat
  | _ => False

end Sys2Proof.Spec

open Sys2Proof Sys2Proof.Machine Sys2Proof.Spec

/-! ## Register file -/

/-- R23: x0 reads 0 in every state and a write to it changes nothing; a write to another register changes that
register alone. -/
def Obligations.RegisterZeroIsHardwired : Prop :=
  (∀ s : State, s.readReg 0 = 0) ∧ (∀ (s : State) (v : Word), s.writeReg 0 v = s) ∧
  ∀ (s : State) (r : RegIdx) (v : Word), r ≠ 0 →
    (s.writeReg r v).readReg r = v ∧ ∀ q, q ≠ r → (s.writeReg r v).readReg q = s.readReg q

/-! ## Upper immediates and control transfer -/

/-- R99. -/
def Obligations.LuiWritesTheUpperImmediate : Prop :=
  DecodesU 0b0110111#7 .lui ∧ ∀ rd imm s, Gives (.lui rd imm) s rd imm (s.pc + 4)

/-- 40_upper_immediate.md, AUIPC; that the sum wraps is the spec's decision D3. -/
def Obligations.AuipcAddsTheUpperImmediateToThePc : Prop :=
  DecodesU 0b0010111#7 .auipc ∧
  ∀ rd imm s, Gives (.auipc rd imm) s rd (BitVec.ofNat 32 ((s.pc.toNat + imm.toNat) % 4294967296)) (s.pc + 4)

/-- 41_control_transfer.md, JAL; that link and target wrap is the spec's decision D3. -/
def Obligations.JalLinksAndJumps : Prop :=
  (∀ w : Word, w.extractLsb' 0 7 = 0b1101111#7 → decode w = .ok (.jal (w.extractLsb' 7 5)
    ((w.extractLsb' 31 1 ++ w.extractLsb' 12 8 ++ w.extractLsb' 20 1 ++ w.extractLsb' 21 10 ++ 0#1 : BitVec 21).signExtend 32))) ∧
  ∀ rd imm s, Gives (.jal rd imm) s rd (s.pc + 4) (s.pc + imm)

/-- 41_control_transfer.md, JALR: the target is the old x[rs1] plus imm, bit 0 not cleared. The wrap is the spec's decision D3, the
funct3 check D5, the read before the write D9. -/
def Obligations.JalrLinksAndJumpsToTheOldRegister : Prop :=
  DecodesI 0b1100111#7 0b000#3 .jalr ∧
  ∀ rd rs1 imm s, Gives (.jalr rd rs1 imm) s rd (s.pc + 4) (s.readReg rs1 + imm)

/-- R103 to R108. -/
def Obligations.BranchesCompareTwoRegisters : Prop :=
  BranchRule 0b000#3 .beq (fun a b => a = b) ∧
  BranchRule 0b001#3 .bne (fun a b => a ≠ b) ∧
  BranchRule 0b100#3 .blt (fun a b => a.toInt < b.toInt) ∧
  BranchRule 0b101#3 .bge (fun a b => a.toInt ≥ b.toInt) ∧
  BranchRule 0b110#3 .bltu (fun a b => a.toNat < b.toNat) ∧
  BranchRule 0b111#3 .bgeu (fun a b => a.toNat ≥ b.toNat)

/-! ## Loads and stores -/

/-- 42_load_store.md, LB and LBU at any address; the effective address `x[rs1] + imm` wraps by the spec's decision D3. -/
def Obligations.ByteLoadsExtendTheByte : Prop :=
  DecodesI 0b0000011#7 0b000#3 .lb ∧ DecodesI 0b0000011#7 0b100#3 .lbu ∧
  ∀ rd rs1 imm s,
    Gives (.lb rd rs1 imm) s rd ((s.readByte (s.readReg rs1 + imm).toNat).signExtend 32) (s.pc + 4) ∧
    Gives (.lbu rd rs1 imm) s rd ((s.readByte (s.readReg rs1 + imm).toNat).setWidth 32) (s.pc + 4)

/-- 42_load_store.md, LH and LHU; the wrap of the effective address is the spec's decision D3, the fault at the top D4. -/
def Obligations.HalfwordLoadsExtendTheHalfword : Prop :=
  DecodesI 0b0000011#7 0b001#3 .lh ∧ DecodesI 0b0000011#7 0b101#3 .lhu ∧
  ∀ rd rs1 imm s,
    ((s.readReg rs1 + imm).toNat + 2 ≤ 4294967296 →
      Gives (.lh rd rs1 imm) s rd ((half s (s.readReg rs1 + imm)).signExtend 32) (s.pc + 4) ∧
      Gives (.lhu rd rs1 imm) s rd ((half s (s.readReg rs1 + imm)).setWidth 32) (s.pc + 4)) ∧
    (4294967296 < (s.readReg rs1 + imm).toNat + 2 →
      exec (.lh rd rs1 imm) s = .fault (.accessWrap s.pc (s.readReg rs1 + imm) 2) ∧
      exec (.lhu rd rs1 imm) s = .fault (.accessWrap s.pc (s.readReg rs1 + imm) 2))

/-- 42_load_store.md, LW at any alignment; D3 and D4 as for the halfword loads. -/
def Obligations.WordLoadsReadFourBytes : Prop :=
  DecodesI 0b0000011#7 0b010#3 .lw ∧
  ∀ rd rs1 imm s,
    ((s.readReg rs1 + imm).toNat + 4 ≤ 4294967296 →
      Gives (.lw rd rs1 imm) s rd (word s (s.readReg rs1 + imm)) (s.pc + 4)) ∧
    (4294967296 < (s.readReg rs1 + imm).toNat + 4 →
      exec (.lw rd rs1 imm) s = .fault (.accessWrap s.pc (s.readReg rs1 + imm) 4))

/-- 42_load_store.md, SB writes one byte at the effective address, whose wrap is the spec's decision D3. -/
def Obligations.StoreByteChangesOneByte : Prop :=
  DecodesS 0b000#3 .sb ∧
  ∀ rs1 rs2 imm s, Stores (.sb rs1 rs2 imm) s (s.readReg rs1 + imm) 1 (s.readReg rs2)

/-- 42_load_store.md, SH and SW at any alignment, low byte first; the wrap of the effective address is the spec's decision D3, the fault
at the top, which commits nothing, D4. -/
def Obligations.HalfwordAndWordStores : Prop :=
  DecodesS 0b001#3 .sh ∧ DecodesS 0b010#3 .sw ∧
  ∀ rs1 rs2 imm s,
    ((s.readReg rs1 + imm).toNat + 2 ≤ 4294967296 → Stores (.sh rs1 rs2 imm) s (s.readReg rs1 + imm) 2 (s.readReg rs2)) ∧
    (4294967296 < (s.readReg rs1 + imm).toNat + 2 →
      exec (.sh rs1 rs2 imm) s = .fault (.accessWrap s.pc (s.readReg rs1 + imm) 2)) ∧
    ((s.readReg rs1 + imm).toNat + 4 ≤ 4294967296 → Stores (.sw rs1 rs2 imm) s (s.readReg rs1 + imm) 4 (s.readReg rs2)) ∧
    (4294967296 < (s.readReg rs1 + imm).toNat + 4 →
      exec (.sw rs1 rs2 imm) s = .fault (.accessWrap s.pc (s.readReg rs1 + imm) 4))

/-- 20_memory.md section 2, in instructions: a word stored and then loaded from the same address comes back, whatever the registers. -/
def Obligations.StoredWordLoadsBack : Prop :=
  ∀ (s t u : State) (rs1 rs2 rd : RegIdx) (imm : Word), rd ≠ 0 →
    exec (.sw rs1 rs2 imm) s = .next t → exec (.lw rd rs1 imm) t = .next u → u.readReg rd = s.readReg rs2

/-! ## Integer ALU -/

/-- R122 to R127. -/
def Obligations.ImmediateArithmetic : Prop :=
  ImmRule 0b000#3 .addi (fun a imm => BitVec.ofInt 32 (a.toInt + imm.toInt)) ∧
  ImmRule 0b010#3 .slti (fun a imm => if a.toInt < imm.toInt then 1 else 0) ∧
  ImmRule 0b011#3 .sltiu (fun a imm => if a.toNat < imm.toNat then 1 else 0) ∧
  ImmRule 0b100#3 .xori (fun a imm => a ^^^ imm) ∧
  ImmRule 0b110#3 .ori (fun a imm => a ||| imm) ∧
  ImmRule 0b111#3 .andi (fun a imm => a &&& imm)

/-- R129 and R130, with the shifts of R16 as divisions by a power of two rounded down. -/
def Obligations.RightShiftImmediates : Prop :=
  ShiftRule 0b101#3 0b0000000#7 .srli (fun a n => BitVec.ofNat 32 (a.toNat / 2 ^ n)) ∧
  ShiftRule 0b101#3 0b0100000#7 .srai (fun a n => BitVec.ofInt 32 (a.toInt / ((2 ^ n : Nat) : Int)))

/-- 43_integer_alu.md, SLLI; that every other funct7 is a DecodeError is the spec's decision D6. -/
def Obligations.LeftShiftImmediate : Prop :=
  ShiftRule 0b001#3 0b0000000#7 .slli (fun a n => BitVec.ofNat 32 (a.toNat * 2 ^ n)) ∧
  ∀ w : Word, w.extractLsb' 0 7 = 0b0010011#7 → w.extractLsb' 12 3 = 0b001#3 → w.extractLsb' 25 7 ≠ 0b0000000#7 →
    ∃ r, decode w = .error r

/-- R131, R132, R134 and R135. -/
def Obligations.RegisterAddSubtractCompare : Prop :=
  RegRule 0b000#3 0b0000000#7 .add (fun a b => BitVec.ofNat 32 (a.toNat + b.toNat)) ∧
  RegRule 0b000#3 0b0100000#7 .sub (fun a b => BitVec.ofInt 32 ((a.toNat : Int) - (b.toNat : Int))) ∧
  RegRule 0b010#3 0b0000000#7 .slt (fun a b => if a.toInt < b.toInt then 1 else 0) ∧
  RegRule 0b011#3 0b0000000#7 .sltu (fun a b => if a.toNat < b.toNat then 1 else 0)

/-- R133, R137 and R138: only bits 4:0 of x[rs2] count. -/
def Obligations.RegisterShiftsMaskTheAmount : Prop :=
  RegRule 0b001#3 0b0000000#7 .sll (fun a b => BitVec.ofNat 32 (a.toNat * 2 ^ (b.toNat % 32))) ∧
  RegRule 0b101#3 0b0000000#7 .srl (fun a b => BitVec.ofNat 32 (a.toNat / 2 ^ (b.toNat % 32))) ∧
  RegRule 0b101#3 0b0100000#7 .sra (fun a b => BitVec.ofInt 32 (a.toInt / ((2 ^ (b.toNat % 32) : Nat) : Int)))

/-- R136, R139 and R140. -/
def Obligations.RegisterLogic : Prop :=
  RegRule 0b100#3 0b0000000#7 .xor (fun a b => a ^^^ b) ∧
  RegRule 0b110#3 0b0000000#7 .or (fun a b => a ||| b) ∧
  RegRule 0b111#3 0b0000000#7 .and (fun a b => a &&& b)

/-! ## Multiply and divide -/

/-- R141 to R144: the low half, and the high half of the exact product (an integer division by 2^32, rounded down). -/
def Obligations.MultiplyHalves : Prop :=
  RegRule 0b000#3 0b0000001#7 .mul (fun a b => BitVec.ofInt 32 (a.toInt * b.toInt)) ∧
  RegRule 0b001#3 0b0000001#7 .mulh (fun a b => BitVec.ofInt 32 (a.toInt * b.toInt / 4294967296)) ∧
  RegRule 0b010#3 0b0000001#7 .mulhsu (fun a b => BitVec.ofInt 32 (a.toInt * (b.toNat : Int) / 4294967296)) ∧
  RegRule 0b011#3 0b0000001#7 .mulhu (fun a b => BitVec.ofNat 32 (a.toNat * b.toNat / 4294967296))

/-- 44_multiply_divide.md, law (b) of section 3 (marked there as derived): the two halves together are the 64-bit product. -/
def Obligations.MultiplyHalvesMakeTheProduct : Prop :=
  ∀ (s tl th tsu tu : State) (rd rs1 rs2 : RegIdx), rd ≠ 0 →
    exec (.mul rd rs1 rs2) s = .next tl → exec (.mulh rd rs1 rs2) s = .next th →
    exec (.mulhsu rd rs1 rs2) s = .next tsu → exec (.mulhu rd rs1 rs2) s = .next tu →
    (th.readReg rd ++ tl.readReg rd : BitVec 64) = BitVec.ofInt 64 ((s.readReg rs1).toInt * (s.readReg rs2).toInt) ∧
    (tsu.readReg rd ++ tl.readReg rd : BitVec 64) = BitVec.ofInt 64 ((s.readReg rs1).toInt * ((s.readReg rs2).toNat : Int)) ∧
    (tu.readReg rd ++ tl.readReg rd : BitVec 64) = BitVec.ofNat 64 ((s.readReg rs1).toNat * (s.readReg rs2).toNat)

/-- 44_multiply_divide.md section 2: truncating division and its remainder. The values at a zero divisor and at -2^31 by -1 are the
spec's decision D10 (log 6). -/
def Obligations.DivisionTruncatesTowardZero : Prop :=
  RegRule 0b100#3 0b0000001#7 .div (fun a b =>
    if b = 0 then 0xFFFFFFFF
    else if a = 0x80000000 ∧ b = 0xFFFFFFFF then 0x80000000 else BitVec.ofInt 32 (a.toInt.tdiv b.toInt)) ∧
  RegRule 0b101#3 0b0000001#7 .divu (fun a b => if b = 0 then 0xFFFFFFFF else BitVec.ofNat 32 (a.toNat / b.toNat)) ∧
  RegRule 0b110#3 0b0000001#7 .rem (fun a b =>
    if b = 0 then a
    else if a = 0x80000000 ∧ b = 0xFFFFFFFF then 0 else BitVec.ofInt 32 (a.toInt.tmod b.toInt)) ∧
  RegRule 0b111#3 0b0000001#7 .remu (fun a b => if b = 0 then a else BitVec.ofNat 32 (a.toNat % b.toNat))

/-- 44_multiply_divide.md, law (a) of section 3 (marked there as derived), for a nonzero divisor outside the overflow case. -/
def Obligations.QuotientAndRemainderRecompose : Prop :=
  ∀ (s tq tr uq ur : State) (rd rs1 rs2 : RegIdx), rd ≠ 0 → s.readReg rs2 ≠ 0 →
    exec (.div rd rs1 rs2) s = .next tq → exec (.rem rd rs1 rs2) s = .next tr →
    exec (.divu rd rs1 rs2) s = .next uq → exec (.remu rd rs1 rs2) s = .next ur →
    (¬ (s.readReg rs1 = 0x80000000 ∧ s.readReg rs2 = 0xFFFFFFFF) →
      (s.readReg rs1).toInt = (tq.readReg rd).toInt * (s.readReg rs2).toInt + (tr.readReg rd).toInt ∧
      (tr.readReg rd).toInt.natAbs < (s.readReg rs2).toInt.natAbs ∧
      ((tr.readReg rd).toInt = 0 ∨ (tr.readReg rd).toInt.sign = (s.readReg rs1).toInt.sign)) ∧
    ((s.readReg rs1).toNat = (uq.readReg rd).toNat * (s.readReg rs2).toNat + (ur.readReg rd).toNat ∧
      (ur.readReg rd).toNat < (s.readReg rs2).toNat)

/-! ## System -/

/-- 45_system.md, ECALL: no effect beyond retiring. That every ECALL word is one, whatever its rd and rs1 fields, is the spec's decision D7
(log 5). -/
def Obligations.EcallChangesOnlyPcAndCount : Prop :=
  (∀ w : Word, w.extractLsb' 0 7 = 0b1110011#7 → w.extractLsb' 12 3 = 0b000#3 → w.extractLsb' 20 12 = 0x000#12 →
    decode w = .ok (.ecall (w.extractLsb' 7 5) (w.extractLsb' 15 5))) ∧
  ∀ rd rs1 s, GoesTo (.ecall rd rs1) s (s.pc + 4)

/-- 45_system.md, FENCE; that funct3 must be 000 is the spec's decision D5, that every other field is ignored D8. -/
def Obligations.FenceChangesOnlyPcAndCount : Prop :=
  DecodesI 0b0001111#7 0b000#3 .fence ∧
  (∀ w : Word, w.extractLsb' 0 7 = 0b0001111#7 → w.extractLsb' 12 3 ≠ 0b000#3 → ∃ r, decode w = .error r) ∧
  ∀ rd rs1 imm s, GoesTo (.fence rd rs1 imm) s (s.pc + 4)

/-- 45_system.md, EBREAK: it retires with pc + 4 and is counted, then the run state is Halted; no register, byte of memory or bound changes,
no step follows, and it has a retire record. That every EBREAK word is one, whatever its rd and rs1 fields, is the spec's decision D7
(log 5). -/
def Obligations.EbreakRetiresAndHalts : Prop :=
  (∀ w : Word, w.extractLsb' 0 7 = 0b1110011#7 → w.extractLsb' 12 3 = 0b000#3 → w.extractLsb' 20 12 = 0x001#12 →
    decode w = .ok (.ebreak (w.extractLsb' 7 5) (w.extractLsb' 15 5))) ∧
  ∀ rd rs1 s, ∃ t, exec (.ebreak rd rs1) s = .next t ∧ SameRegs s t ∧ SameMem s t ∧
    t.pc = s.pc + 4 ∧ t.retired = s.retired + 1 ∧ t.run = .halted ∧ t.fuel = s.fuel ∧ (∀ u, step t ≠ .next u) ∧
    (Steps s → s.pc.toNat + 4 ≤ 4294967296 → decode (word s s.pc) = .ok (.ebreak rd rs1) →
      step s = .next t ∧
      ∃ r, retireRecord s = some r ∧ r.pc = s.pc ∧ r.decoded = .ebreak rd rs1)

/-! ## Frames over all instructions -/

/-- 10_state.md R26 (marked there as derived): an instruction changes no register but its destination, and x0 never. -/
def Obligations.OnlyTheDestinationRegisterChanges : Prop :=
  ∀ (i : Instr) (s t : State), exec i s = .next t → ∀ r, i.destReg ≠ some r ∨ r = 0 → t.readReg r = s.readReg r

/-- 20_memory.md section 1 and 42_load_store.md section 3: an instruction changes no byte but those a store writes at its effective address. -/
def Obligations.OnlyStoredBytesChange : Prop :=
  ∀ (i : Instr) (s t : State), exec i s = .next t → ∀ a,
    (∀ ea w, i.format = .S → i.dataAccess s = some (ea, w) → a < ea.toNat ∨ ea.toNat + w.bytes ≤ a) →
    t.readByte a = s.readByte a

/-- 10_state.md R30, the next PC: JAL and JALR always set a target, a taken branch sets a target, and every other instruction, a branch not
taken among them, goes to pc + 4. That JALR's target is the old register plus imm is the spec's decision D9, the wrap D3. -/
def Obligations.NextPcIsTargetOrFallThrough : Prop :=
  ∀ (i : Instr) (s t : State), exec i s = .next t →
    (∀ rd imm, i = .jal rd imm → t.pc = s.pc + imm) ∧
    (∀ rd rs1 imm, i = .jalr rd rs1 imm → t.pc = s.readReg rs1 + imm) ∧
    (i.format = .B → Taken s i → ∃ imm, i.imm = some imm ∧ t.pc = s.pc + imm) ∧
    (¬ Taken s i → (∀ rd imm, i ≠ .jal rd imm) → (∀ rd rs1 imm, i ≠ .jalr rd rs1 imm) → t.pc = s.pc + 4)

/-- 60_exceptions.md R154, R155 and the spec's decision D4: an instruction stops only on its own data access across the top of the address
space, and is never refused. -/
def Obligations.OnlyDataAccessAcrossTheTopFaults : Prop :=
  ∀ (i : Instr) (s : State),
    (∀ f, exec i s = .fault f ↔
      ∃ ea w, i.dataAccess s = some (ea, w) ∧ 4294967296 < ea.toNat + w.bytes ∧ f = .accessWrap s.pc ea w.bytes) ∧
    ∀ r, exec i s ≠ .refused r

/-- 10_state.md R37 and 60_exceptions.md R165: no instruction can read the count (nor the bound). Two states that agree on registers, pc and
memory still do after any instruction, and one runs exactly when the other does. -/
def Obligations.CountIsInvisibleToInstructions : Prop :=
  ∀ (i : Instr) (s u t : State), SameRegs s u → u.pc = s.pc → u.mem = s.mem → exec i s = .next t →
    ∃ v, exec i u = .next v ∧ SameRegs t v ∧ v.pc = t.pc ∧ v.mem = t.mem

/-! ## The step -/

/-- 10_state.md section 7: when the four bytes at the pc decode to an instruction, the step is that instruction's execution, with nothing
around it. -/
def Obligations.StepExecutesTheDecodedInstruction : Prop :=
  ∀ (s : State) (i : Instr), Steps s → s.pc.toNat + 4 ≤ 4294967296 → decode (word s s.pc) = .ok i → step s = exec i s

/-- 10_state.md section 7, Decode: an illegal word ends the step in Faulted(DecodeError(pc, inst)); any other word is executed as the
instruction it decodes to. That the fault leaves registers, memory, pc and count and emits no record is the spec's decision D16 (log 4). -/
def Obligations.IllegalWordFaultsAndCommitsNothing : Prop :=
  ∀ s : State, Steps s → s.pc.toNat + 4 ≤ 4294967296 →
    (∃ i, decode (word s s.pc) = .ok i ∧ step s = exec i s) ∨
    (step s = .fault (.decodeError s.pc (word s s.pc)) ∧ (advance s).run = .faulted (.decodeError s.pc (word s s.pc)) ∧
      SameRegs s (advance s) ∧ SameMem s (advance s) ∧ (advance s).pc = s.pc ∧ (advance s).retired = s.retired ∧
      retireRecord s = none)

/-- The spec's decisions D4 and D17: a fetch whose four bytes cross the top is AccessWrap(pc, pc, 4), whatever the memory holds. -/
def Obligations.FetchAcrossTheTopFaults : Prop :=
  ∀ s : State, Steps s → 4294967296 < s.pc.toNat + 4 → step s = .fault (.accessWrap s.pc s.pc 4)

/-- The spec's decision D15: with `retired = FUEL` a Running state goes to BoundReached before the fetch, and nothing else changes. -/
def Obligations.ExhaustedBoundStopsBeforeTheFetch : Prop :=
  ∀ s : State, s.run = .running → s.fuel = some s.retired →
    ∃ t, step s = .next t ∧ t.run = .boundReached ∧ SameRegs s t ∧ SameMem s t ∧ t.pc = s.pc ∧ t.retired = s.retired ∧
      t.fuel = s.fuel ∧ retireRecord s = none

/-- 10_state.md section 5 and 60_exceptions.md section 4 (decisions D15 and D16 among them): Halted, Faulted and BoundReached have no step and
are never left. That `step` answers a refusal there is the model's choice (log 8). -/
def Obligations.TerminalStatesAreNeverLeft : Prop :=
  ∀ s : State, s.run ≠ .running → step s = .refused (.notRunning s.run) ∧ ∀ n, runFor n s = s

/-- 70_reset_and_hazards.md section 3: a step reaches Halted only by retiring an EBREAK. -/
def Obligations.OnlyEbreakHaltsTheRun : Prop :=
  ∀ s t : State, step s = .next t → t.run = .halted → ∃ rd rs1, decode (word s s.pc) = .ok (.ebreak rd rs1)

/-- 60_exceptions.md section 1 (decisions D16 and D23 among them): a step's fault is DecodeError of the fetched word or AccessWrap, each at
the pc; it leaves registers, memory, pc, count and bound as they were, and the run state Faulted with it. -/
def Obligations.FatalErrorsArePrecise : Prop :=
  ∀ (s : State) (f : Fault), step s = .fault f →
    (f = .decodeError s.pc (word s s.pc) ∨ ∃ a n, f = .accessWrap s.pc a n) ∧
    (advance s).run = .faulted f ∧ SameRegs s (advance s) ∧ (advance s).mem = s.mem ∧ (advance s).pc = s.pc ∧
    (advance s).retired = s.retired ∧ (advance s).fuel = s.fuel

/-- 20_memory.md section 6 (fetch coherence, marked there as derived): the step after a store of a word over the next instruction executes the word stored. -/
def Obligations.NextFetchSeesTheStoredWord : Prop :=
  ∀ (s t : State) (rs1 rs2 : RegIdx) (imm : Word) (i : Instr),
    Steps s → (s.pc + 4).toNat + 4 ≤ 4294967296 → s.readReg rs1 + imm = s.pc + 4 → s.fuel ≠ some (s.retired + 1) →
    decode (s.readReg rs2) = .ok i → exec (.sw rs1 rs2 imm) s = .next t → step t = exec i t

/-! ## Memory -/

/-- 20_memory.md section 2: a read of n bytes is the sum over k < n of mem[a + k] * 2^(8k), an unsigned value of 8n bits. -/
def Obligations.ReadIsLittleEndianSum : Prop :=
  ∀ (m : Memory) (a : Word) (w : Width),
    (m.load a w).toNat = ∑ k ∈ Finset.range w.bytes, (m.byte (a.toNat + k)).toNat * 2 ^ (8 * k) ∧
    (m.load a w).toNat < 2 ^ (8 * w.bytes)

/-- 20_memory.md section 2 (marked there as derived): narrower reads see a stored word's bytes in little-endian positions. -/
def Obligations.NarrowReadsSeeTheStoredWord : Prop :=
  ∀ (m : Memory) (a v : Word), a.toNat + 4 ≤ 4294967296 →
    (m.store a .word v).load a .byte = v &&& 0xFF ∧
    (m.store a .word v).load (a + 3) .byte = v >>> 24 ∧
    (m.store a .word v).load a .half = v &&& 0xFFFF ∧
    (m.store a .word v).load (a + 1) .half = (v >>> 8) &&& 0xFFFF

/-- The model's canonical form (log 16): two memories in it that read the same everywhere are equal data. -/
def Obligations.CanonicalMemoriesAreDeterminedByTheirBytes : Prop :=
  ∀ m m' : Memory, m.wf → m'.wf → (∀ a, m.byte a = m'.byte a) → m = m'

/-! ## Encoding -/

/-- 30_encoding.md section 6: decoding an encoded well-formed instruction gives it back, every operand at every value its format admits. That
FENCE, ECALL and EBREAK keep their ignored fields too is the model's choice (log 7). -/
def Obligations.DecodeInvertsEncode : Prop :=
  ∀ i : Instr, i.WellFormed → decode (encode i) = .ok i

/-- 30_encoding.md section 6: what the decoder reads is well-formed and encodes back to the same word, so no two words share an instruction
(for the ignored fields by the model's choice, log 7). -/
def Obligations.EncodeInvertsDecode : Prop :=
  ∀ (w : Word) (i : Instr), decode w = .ok i → i.WellFormed ∧ encode i = w

/-- 30_encoding.md section 4, R91: a word is illegal, and a step that fetches it raises DecodeError(pc, inst), exactly in the cases (a) to (d)
over the tables of R89, whose values and whose strictness are the spec's decisions D2, D5 and D6. -/
def Obligations.DecodeErrorExactlyForIllegalWords : Prop :=
  (∀ w : Word, (∃ r, decode w = .error r) ↔ Illegal w) ∧
  ∀ s : State, Steps s → s.pc.toNat + 4 ≤ 4294967296 →
    (step s = .fault (.decodeError s.pc (word s s.pc)) ↔ Illegal (word s s.pc))

/-- opcode_table.json: a decoded word is accepted by a row of its own mnemonic, which the table has, and by no row of another; a rejected
word is accepted by none. -/
def Obligations.DecoderAgreesWithTheOpcodeTable : Prop :=
  (∀ (w : Word) (i : Instr), decode w = .ok i →
    (∃ r ∈ opcodeTable, r.mnemonic = i.mnemonic ∧ r.accepts w = true) ∧
    ∀ r ∈ opcodeTable, r.accepts w = true ↔ r.mnemonic = i.mnemonic) ∧
  ∀ (w : Word) (e : DecodeReject), decode w = .error e → ∀ r ∈ opcodeTable, r.accepts w = false

/-- 30_encoding.md sections 1 and 2: the immediates of the decoded formats and their ranges. -/
def Obligations.ImmediatesHaveTheirFormatsRange : Prop :=
  ∀ (w : Word) (i : Instr) (imm : Word), decode w = .ok i → i.imm = some imm →
    (i.format = .I → imm.toInt = (w.extractLsb' 20 12).toInt ∧ -2048 ≤ imm.toInt ∧ imm.toInt ≤ 2047) ∧
    (i.format = .S → imm.toInt = (w.extractLsb' 25 7).toInt * 32 + ((w.extractLsb' 7 5).toNat : Int) ∧
      -2048 ≤ imm.toInt ∧ imm.toInt ≤ 2047) ∧
    (i.format = .B → imm.toInt = (w.extractLsb' 31 1).toInt * 4096 + ((w.extractLsb' 7 1).toNat : Int) * 2048 +
      ((w.extractLsb' 25 6).toNat : Int) * 32 + ((w.extractLsb' 8 4).toNat : Int) * 2 ∧ -4096 ≤ imm.toInt ∧ imm.toInt ≤ 4094) ∧
    (i.format = .U → imm.toNat = (w.extractLsb' 12 20).toNat * 4096) ∧
    (i.format = .J → imm.toInt = (w.extractLsb' 31 1).toInt * 1048576 + ((w.extractLsb' 12 8).toNat : Int) * 4096 +
      ((w.extractLsb' 20 1).toNat : Int) * 2048 + ((w.extractLsb' 21 10).toNat : Int) * 2 ∧
      -1048576 ≤ imm.toInt ∧ imm.toInt ≤ 1048574)

/-- Words written out in the examples of the instruction rules (files 40 to 45) and in 95_test_vectors.md decode to the instructions they
stand for. That EBREAK's rd field (8 in the last word) is ignored is the spec's decision D7 (log 5). -/
def Obligations.WrittenOutWordsDecode : Prop :=
  decode 0x100000B7 = .ok (.lui 1 0x10000000) ∧ decode 0x008000EF = .ok (.jal 1 8) ∧
  decode 0xFE629CE3 = .ok (.bne 5 6 (-8)) ∧ decode 0x00030383 = .ok (.lb 7 6 0) ∧ decode 0xFE532E23 = .ok (.sw 6 5 (-4)) ∧
  decode 0x00408113 = .ok (.addi 2 1 4) ∧ decode 0x41F2D313 = .ok (.srai 6 5 31) ∧ decode 0x406283B3 = .ok (.sub 7 5 6) ∧
  decode 0x0262C3B3 = .ok (.div 7 5 6) ∧ decode 0x00100473 = .ok (.ebreak 8 0)

/-! ## Launch and loader -/

/-- 10_state.md section 8 and 70_reset_and_hazards.md section 1 (decisions D11, D12 and D15 among them): a launched state is Running with
nothing retired, its memory the one the loader makes of the image, its pc the host's entry or else the image's, x2 at SP_INIT when given
and every other register at INIT_REGS, and it meets the invariant (whose canonical form is log 16). -/
def Obligations.LaunchedStateIsAsTheSpecSays : Prop :=
  ∀ (p : LaunchParams) (s : State), launch p = .next s →
    s.Inv ∧ s.run = .running ∧ s.retired = 0 ∧ s.fuel = p.fuel ∧
    (∀ pc, p.entryOverride = some pc → s.pc = pc) ∧
    (∃ e m, loadImage p.verifyChecksum p.image = .ok (e, m) ∧ s.mem = m ∧ (p.entryOverride = none → e = some s.pc)) ∧
    (∀ sp, p.spInit = some sp → s.readReg 2 = sp) ∧
    ∀ (k : Fin 31), (p.spInit = none ∨ k.val ≠ 1) → s.readReg (BitVec.ofNat 5 (k.val + 1)) = p.initRegs[k.val]

/-- The spec's decisions D20 and D22: a type 00 record places its byte i at `base_address + AAAA + i` and changes no other byte, the base
address or the entry. -/
def Obligations.DataRecordPlacesItsBytes : Prop :=
  ∀ (st st' : LoaderState) (aaaa : Word) (dd : List Byte), dd.length ≤ 255 → applyRecord st aaaa 0 dd = .continue st' →
    st'.base = st.base ∧ st'.entry = st.entry ∧
    (∀ (i : Nat) (h : i < dd.length), st'.mem.byte (st.base + aaaa + BitVec.ofNat 32 i).toNat = dd[i]) ∧
    ∀ x : Word, (∀ i, i < dd.length → x ≠ st.base + aaaa + BitVec.ofNat 32 i) → st'.mem.byte x.toNat = st.mem.byte x.toNat

/-! ## Retirement trace -/

/-- 60_exceptions.md section 3 (decision D18 among it): the record of a retired instruction holds its pc, its word, the instruction decoded, and
the touched registers in the order rd (after commit), rs1, rs2 (before). -/
def Obligations.RetireRecordDescribesTheStep : Prop :=
  ∀ (s : State) (r : RetireRecord), retireRecord s = some r →
    ∃ t, step s = .next t ∧ t.retired = s.retired + 1 ∧ r.pc = s.pc ∧ r.inst = word s s.pc ∧ decode r.inst = .ok r.decoded ∧
      (r.decoded.format = .R → ∃ rd rs1 rs2, r.decoded.destReg = some rd ∧ r.decoded.srcReg1 = some rs1 ∧
        r.decoded.srcReg2 = some rs2 ∧ r.touched = [(rd, t.readReg rd), (rs1, s.readReg rs1), (rs2, s.readReg rs2)]) ∧
      (r.decoded.format = .S ∨ r.decoded.format = .B → ∃ rs1 rs2, r.decoded.srcReg1 = some rs1 ∧
        r.decoded.srcReg2 = some rs2 ∧ r.touched = [(rs1, s.readReg rs1), (rs2, s.readReg rs2)]) ∧
      (r.decoded.format = .U ∨ r.decoded.format = .J → ∃ rd, r.decoded.destReg = some rd ∧ r.touched = [(rd, t.readReg rd)]) ∧
      (r.decoded.format = .I → (r.touched = [] ∧ r.decoded.destReg = none) ∨ ∃ rd rs1, r.decoded.destReg = some rd ∧
        r.decoded.srcReg1 = some rs1 ∧ r.touched = [(rd, t.readReg rd), (rs1, s.readReg rs1)])

/-- 60_exceptions.md section 3 and 10_state.md section 5: over any number of steps there are as many records as instructions retired. -/
def Obligations.OneRecordForEachRetiredInstruction : Prop :=
  ∀ (n : Nat) (s : State), (runRecords n s).length + s.retired = (runFor n s).retired

/-! ## The invariant -/

/-- Every step keeps the invariant: canonical memory inside the address space, the count within the bound, BoundReached exactly at the bound,
and Halted only after something retired. The canonical form is the model's own (log 16); the bound is the spec's decision D15. -/
def Obligations.EveryStepKeepsTheInvariant : Prop :=
  ∀ s t : State, s.Inv → step s = .next t → t.Inv

/-- Reset meets the invariant, and memory, run state and count are the spec's; the registers and pc are the model's choice (log 1, log 2). -/
def Obligations.ResetMeetsTheInvariant : Prop :=
  State.reset.Inv ∧ State.reset.run = .running ∧ State.reset.retired = 0 ∧ ∀ a, State.reset.readByte a = 0
end

