-- ==== Sys2Proof/Laws/Encoding.lean ====
section
/-! SUPPORT. The encoder's words read field by field, and the immediates recovered from them (30_encoding.md R79 to R86). -/

namespace Sys2Proof

/-! ## encodeR -/

@[simp] theorem opcodeOf_encodeR (f7 : BitVec 7) (f3 : BitVec 3) (op : BitVec 7) (rd rs1 rs2 : RegIdx) : opcodeOf (encodeR f7 f3 op rd rs1 rs2) = op := by
  unfold opcodeOf encodeR
  ext i hi
  simp only [BitVec.getElem_extractLsb', BitVec.getLsbD_append]
  simp (disch := omega) only [if_neg, if_pos]
  rw [BitVec.getElem_eq_testBit_toNat, BitVec.getLsbD]
  congr 1
  omega

@[simp] theorem rdOf_encodeR (f7 : BitVec 7) (f3 : BitVec 3) (op : BitVec 7) (rd rs1 rs2 : RegIdx) : rdOf (encodeR f7 f3 op rd rs1 rs2) = rd := by
  unfold rdOf encodeR
  ext i hi
  simp only [BitVec.getElem_extractLsb', BitVec.getLsbD_append]
  simp (disch := omega) only [if_neg, if_pos]
  rw [BitVec.getElem_eq_testBit_toNat, BitVec.getLsbD]
  congr 1
  omega

@[simp] theorem funct3Of_encodeR (f7 : BitVec 7) (f3 : BitVec 3) (op : BitVec 7) (rd rs1 rs2 : RegIdx) : funct3Of (encodeR f7 f3 op rd rs1 rs2) = f3 := by
  unfold funct3Of encodeR
  ext i hi
  simp only [BitVec.getElem_extractLsb', BitVec.getLsbD_append]
  simp (disch := omega) only [if_neg, if_pos]
  rw [BitVec.getElem_eq_testBit_toNat, BitVec.getLsbD]
  congr 1
  omega

@[simp] theorem rs1Of_encodeR (f7 : BitVec 7) (f3 : BitVec 3) (op : BitVec 7) (rd rs1 rs2 : RegIdx) : rs1Of (encodeR f7 f3 op rd rs1 rs2) = rs1 := by
  unfold rs1Of encodeR
  ext i hi
  simp only [BitVec.getElem_extractLsb', BitVec.getLsbD_append]
  simp (disch := omega) only [if_neg, if_pos]
  rw [BitVec.getElem_eq_testBit_toNat, BitVec.getLsbD]
  congr 1
  omega

@[simp] theorem rs2Of_encodeR (f7 : BitVec 7) (f3 : BitVec 3) (op : BitVec 7) (rd rs1 rs2 : RegIdx) : rs2Of (encodeR f7 f3 op rd rs1 rs2) = rs2 := by
  unfold rs2Of encodeR
  ext i hi
  simp only [BitVec.getElem_extractLsb', BitVec.getLsbD_append]
  simp (disch := omega) only [if_neg, if_pos]
  rw [BitVec.getElem_eq_testBit_toNat, BitVec.getLsbD]
  congr 1
  omega

@[simp] theorem shamtOf_encodeR (f7 : BitVec 7) (f3 : BitVec 3) (op : BitVec 7) (rd rs1 rs2 : RegIdx) : shamtOf (encodeR f7 f3 op rd rs1 rs2) = rs2 := by
  unfold shamtOf encodeR
  ext i hi
  simp only [BitVec.getElem_extractLsb', BitVec.getLsbD_append]
  simp (disch := omega) only [if_neg, if_pos]
  rw [BitVec.getElem_eq_testBit_toNat, BitVec.getLsbD]
  congr 1
  omega

@[simp] theorem funct7Of_encodeR (f7 : BitVec 7) (f3 : BitVec 3) (op : BitVec 7) (rd rs1 rs2 : RegIdx) : funct7Of (encodeR f7 f3 op rd rs1 rs2) = f7 := by
  unfold funct7Of encodeR
  ext i hi
  simp only [BitVec.getElem_extractLsb', BitVec.getLsbD_append]
  simp (disch := omega) only [if_neg]
  rw [BitVec.getElem_eq_testBit_toNat, BitVec.getLsbD]
  congr 1
  omega

/-! ## encodeI -/

@[simp] theorem opcodeOf_encodeI (i12 : BitVec 12) (f3 : BitVec 3) (op : BitVec 7) (rd rs1 : RegIdx) : opcodeOf (encodeI i12 f3 op rd rs1) = op := by
  unfold opcodeOf encodeI
  ext i hi
  simp only [BitVec.getElem_extractLsb', BitVec.getLsbD_append]
  simp (disch := omega) only [if_neg, if_pos]
  rw [BitVec.getElem_eq_testBit_toNat, BitVec.getLsbD]
  congr 1
  omega

@[simp] theorem rdOf_encodeI (i12 : BitVec 12) (f3 : BitVec 3) (op : BitVec 7) (rd rs1 : RegIdx) : rdOf (encodeI i12 f3 op rd rs1) = rd := by
  unfold rdOf encodeI
  ext i hi
  simp only [BitVec.getElem_extractLsb', BitVec.getLsbD_append]
  simp (disch := omega) only [if_neg, if_pos]
  rw [BitVec.getElem_eq_testBit_toNat, BitVec.getLsbD]
  congr 1
  omega

@[simp] theorem funct3Of_encodeI (i12 : BitVec 12) (f3 : BitVec 3) (op : BitVec 7) (rd rs1 : RegIdx) : funct3Of (encodeI i12 f3 op rd rs1) = f3 := by
  unfold funct3Of encodeI
  ext i hi
  simp only [BitVec.getElem_extractLsb', BitVec.getLsbD_append]
  simp (disch := omega) only [if_neg, if_pos]
  rw [BitVec.getElem_eq_testBit_toNat, BitVec.getLsbD]
  congr 1
  omega

@[simp] theorem rs1Of_encodeI (i12 : BitVec 12) (f3 : BitVec 3) (op : BitVec 7) (rd rs1 : RegIdx) : rs1Of (encodeI i12 f3 op rd rs1) = rs1 := by
  unfold rs1Of encodeI
  ext i hi
  simp only [BitVec.getElem_extractLsb', BitVec.getLsbD_append]
  simp (disch := omega) only [if_neg, if_pos]
  rw [BitVec.getElem_eq_testBit_toNat, BitVec.getLsbD]
  congr 1
  omega

@[simp] theorem funct12Of_encodeI (i12 : BitVec 12) (f3 : BitVec 3) (op : BitVec 7) (rd rs1 : RegIdx) : funct12Of (encodeI i12 f3 op rd rs1) = i12 := by
  unfold funct12Of encodeI
  ext i hi
  simp only [BitVec.getElem_extractLsb', BitVec.getLsbD_append]
  simp (disch := omega) only [if_neg]
  rw [BitVec.getElem_eq_testBit_toNat, BitVec.getLsbD]
  congr 1
  omega

/-! ## encodeS -/

@[simp] theorem opcodeOf_encodeS (imm : Word) (f3 : BitVec 3) (op : BitVec 7) (rs1 rs2 : RegIdx) : opcodeOf (encodeS imm f3 op rs1 rs2) = op := by
  unfold opcodeOf encodeS
  ext i hi
  simp only [BitVec.getElem_extractLsb', BitVec.getLsbD_append]
  simp (disch := omega) only [if_neg, if_pos]
  rw [BitVec.getElem_eq_testBit_toNat, BitVec.getLsbD]
  congr 1
  omega

@[simp] theorem funct3Of_encodeS (imm : Word) (f3 : BitVec 3) (op : BitVec 7) (rs1 rs2 : RegIdx) : funct3Of (encodeS imm f3 op rs1 rs2) = f3 := by
  unfold funct3Of encodeS
  ext i hi
  simp only [BitVec.getElem_extractLsb', BitVec.getLsbD_append]
  simp (disch := omega) only [if_neg, if_pos]
  rw [BitVec.getElem_eq_testBit_toNat, BitVec.getLsbD]
  congr 1
  omega

@[simp] theorem rs1Of_encodeS (imm : Word) (f3 : BitVec 3) (op : BitVec 7) (rs1 rs2 : RegIdx) : rs1Of (encodeS imm f3 op rs1 rs2) = rs1 := by
  unfold rs1Of encodeS
  ext i hi
  simp only [BitVec.getElem_extractLsb', BitVec.getLsbD_append]
  simp (disch := omega) only [if_neg, if_pos]
  rw [BitVec.getElem_eq_testBit_toNat, BitVec.getLsbD]
  congr 1
  omega

@[simp] theorem rs2Of_encodeS (imm : Word) (f3 : BitVec 3) (op : BitVec 7) (rs1 rs2 : RegIdx) : rs2Of (encodeS imm f3 op rs1 rs2) = rs2 := by
  unfold rs2Of encodeS
  ext i hi
  simp only [BitVec.getElem_extractLsb', BitVec.getLsbD_append]
  simp (disch := omega) only [if_neg, if_pos]
  rw [BitVec.getElem_eq_testBit_toNat, BitVec.getLsbD]
  congr 1
  omega

/-! ## encodeB -/

@[simp] theorem opcodeOf_encodeB (imm : Word) (f3 : BitVec 3) (op : BitVec 7) (rs1 rs2 : RegIdx) : opcodeOf (encodeB imm f3 op rs1 rs2) = op := by
  unfold opcodeOf encodeB
  ext i hi
  simp only [BitVec.getElem_extractLsb', BitVec.getLsbD_append]
  simp (disch := omega) only [if_neg, if_pos]
  rw [BitVec.getElem_eq_testBit_toNat, BitVec.getLsbD]
  congr 1
  omega

@[simp] theorem funct3Of_encodeB (imm : Word) (f3 : BitVec 3) (op : BitVec 7) (rs1 rs2 : RegIdx) : funct3Of (encodeB imm f3 op rs1 rs2) = f3 := by
  unfold funct3Of encodeB
  ext i hi
  simp only [BitVec.getElem_extractLsb', BitVec.getLsbD_append]
  simp (disch := omega) only [if_neg, if_pos]
  rw [BitVec.getElem_eq_testBit_toNat, BitVec.getLsbD]
  congr 1
  omega

@[simp] theorem rs1Of_encodeB (imm : Word) (f3 : BitVec 3) (op : BitVec 7) (rs1 rs2 : RegIdx) : rs1Of (encodeB imm f3 op rs1 rs2) = rs1 := by
  unfold rs1Of encodeB
  ext i hi
  simp only [BitVec.getElem_extractLsb', BitVec.getLsbD_append]
  simp (disch := omega) only [if_neg, if_pos]
  rw [BitVec.getElem_eq_testBit_toNat, BitVec.getLsbD]
  congr 1
  omega

@[simp] theorem rs2Of_encodeB (imm : Word) (f3 : BitVec 3) (op : BitVec 7) (rs1 rs2 : RegIdx) : rs2Of (encodeB imm f3 op rs1 rs2) = rs2 := by
  unfold rs2Of encodeB
  ext i hi
  simp only [BitVec.getElem_extractLsb', BitVec.getLsbD_append]
  simp (disch := omega) only [if_neg, if_pos]
  rw [BitVec.getElem_eq_testBit_toNat, BitVec.getLsbD]
  congr 1
  omega

/-! ## encodeU -/

@[simp] theorem opcodeOf_encodeU (imm : Word) (op : BitVec 7) (rd : RegIdx) : opcodeOf (encodeU imm op rd) = op := by
  unfold opcodeOf encodeU
  ext i hi
  simp only [BitVec.getElem_extractLsb', BitVec.getLsbD_append]
  simp (disch := omega) only [if_neg, if_pos]
  rw [BitVec.getElem_eq_testBit_toNat, BitVec.getLsbD]
  congr 1
  omega

@[simp] theorem rdOf_encodeU (imm : Word) (op : BitVec 7) (rd : RegIdx) : rdOf (encodeU imm op rd) = rd := by
  unfold rdOf encodeU
  ext i hi
  simp only [BitVec.getElem_extractLsb', BitVec.getLsbD_append]
  simp (disch := omega) only [if_neg, if_pos]
  rw [BitVec.getElem_eq_testBit_toNat, BitVec.getLsbD]
  congr 1
  omega

/-! ## encodeJ -/

@[simp] theorem opcodeOf_encodeJ (imm : Word) (op : BitVec 7) (rd : RegIdx) : opcodeOf (encodeJ imm op rd) = op := by
  unfold opcodeOf encodeJ
  ext i hi
  simp only [BitVec.getElem_extractLsb', BitVec.getLsbD_append]
  simp (disch := omega) only [if_neg, if_pos]
  rw [BitVec.getElem_eq_testBit_toNat, BitVec.getLsbD]
  congr 1
  omega

@[simp] theorem rdOf_encodeJ (imm : Word) (op : BitVec 7) (rd : RegIdx) : rdOf (encodeJ imm op rd) = rd := by
  unfold rdOf encodeJ
  ext i hi
  simp only [BitVec.getElem_extractLsb', BitVec.getLsbD_append]
  simp (disch := omega) only [if_neg, if_pos]
  rw [BitVec.getElem_eq_testBit_toNat, BitVec.getLsbD]
  congr 1
  omega

/-! ## Immediates -/

/-- A value in the signed range of `k` bits is the sign extension of its low `k` bits. -/
theorem signExtend_low {imm : Word} (k : Nat) (hk : k ≤ 32) (h1 : -(((2 ^ k : Nat) : Int) / 2) ≤ imm.toInt)
    (h2 : imm.toInt < (((2 ^ k : Nat) : Int) + 1) / 2) : (imm.extractLsb' 0 k).signExtend 32 = imm := by
  apply BitVec.eq_of_toInt_eq
  rw [BitVec.toInt_signExtend_of_le hk, BitVec.toInt_eq_toNat_bmod, BitVec.extractLsb'_toNat, Nat.shiftRight_zero,
    Int.natCast_mod, Int.emod_bmod, ← Int.bmod_bmod_of_dvd (Nat.pow_dvd_pow 2 hk), ← BitVec.toInt_eq_toNat_bmod]
  exact Int.bmod_eq_of_le h1 h2

/-- An I or S immediate is recovered from its low 12 bits. -/
theorem signExtend_low12 {imm : Word} (h : immFits12 imm = true) : (imm.extractLsb' 0 12).signExtend 32 = imm := by
  simp only [immFits12, Bool.and_eq_true, decide_eq_true_eq] at h
  exact signExtend_low 12 (by decide) (by norm_num; omega) (by norm_num; omega)

/-- A B immediate is recovered from its low 13 bits. -/
theorem signExtend_low13 {imm : Word} (h : immFitsB imm = true) : (imm.extractLsb' 0 13).signExtend 32 = imm := by
  simp only [immFitsB, Bool.and_eq_true, decide_eq_true_eq] at h
  exact signExtend_low 13 (by decide) (by norm_num; omega) (by norm_num; omega)

/-- A J immediate is recovered from its low 21 bits. -/
theorem signExtend_low21 {imm : Word} (h : immFitsJ imm = true) : (imm.extractLsb' 0 21).signExtend 32 = imm := by
  simp only [immFitsJ, Bool.and_eq_true, decide_eq_true_eq] at h
  exact signExtend_low 21 (by decide) (by norm_num; omega) (by norm_num; omega)

/-- An even value has bit 0 clear. -/
theorem getElem_zero_of_even {imm : Word} (h : imm.toInt % 2 = 0) : imm[0] = false := by
  rw [BitVec.getElem_eq_testBit_toNat, Nat.testBit_zero]
  rw [BitVec.toInt_eq_toNat_cond] at h
  simp only [decide_eq_false_iff_not]
  split at h <;> omega

@[simp] theorem immIOf_encodeI (i12 : BitVec 12) (f3 : BitVec 3) (op : BitVec 7) (rd rs1 : RegIdx) :
    immIOf (encodeI i12 f3 op rd rs1) = i12.signExtend 32 :=
  congrArg (BitVec.signExtend 32) (funct12Of_encodeI i12 f3 op rd rs1)

/-- The S immediate read from an encoded word. -/
theorem immSOf_encodeS {imm : Word} (f3 : BitVec 3) (op : BitVec 7) (rs1 rs2 : RegIdx) (h : immFits12 imm = true) :
    immSOf (encodeS imm f3 op rs1 rs2) = imm := by
  conv_rhs => rw [← signExtend_low12 h]
  unfold immSOf encodeS
  congr 1
  ext i hi
  simp only [BitVec.getElem_append, BitVec.getElem_extractLsb', BitVec.getLsbD_append, BitVec.getLsbD_extractLsb']
  interval_cases i <;> simp

/-- The B immediate read from an encoded word. -/
theorem immBOf_encodeB {imm : Word} (f3 : BitVec 3) (op : BitVec 7) (rs1 rs2 : RegIdx) (h : immFitsB imm = true) :
    immBOf (encodeB imm f3 op rs1 rs2) = imm := by
  have h0 : imm[0] = false := getElem_zero_of_even (by simp [immFitsB] at h; omega)
  conv_rhs => rw [← signExtend_low13 h]
  unfold immBOf encodeB
  congr 1
  ext i hi
  simp only [BitVec.getElem_append, BitVec.getElem_extractLsb', BitVec.getLsbD_append, BitVec.getLsbD_extractLsb']
  interval_cases i <;> simp [h0]

/-- The U immediate read from an encoded word. -/
theorem immUOf_encodeU {imm : Word} (op : BitVec 7) (rd : RegIdx) (h : immFitsU imm = true) :
    immUOf (encodeU imm op rd) = imm := by
  have h0 : imm.toNat % 4096 = 0 := by
    simp only [immFitsU, decide_eq_true_eq] at h
    rw [BitVec.toInt_eq_toNat_cond] at h
    split at h <;> omega
  have hb : ∀ i, i < 12 → imm.getLsbD i = false := by
    intro i hi
    rw [BitVec.getLsbD, Nat.testBit_eq_decide_div_mod_eq]
    have : imm.toNat = 4096 * (imm.toNat / 4096) := by omega
    rw [this]
    interval_cases i <;> simp <;> omega
  unfold immUOf encodeU
  ext i hi
  simp only [BitVec.getElem_append, BitVec.getElem_extractLsb', BitVec.getLsbD_append, BitVec.getLsbD_extractLsb']
  by_cases hi' : i < 12
  · have := hb i hi'
    rw [BitVec.getLsbD_eq_getElem hi] at this
    simp [hi', this]
  · have hlo : 12 ≤ i := by omega
    clear hi' hb h0 h
    interval_cases i <;> simp

/-- The J immediate read from an encoded word. -/
theorem immJOf_encodeJ {imm : Word} (op : BitVec 7) (rd : RegIdx) (h : immFitsJ imm = true) :
    immJOf (encodeJ imm op rd) = imm := by
  have h0 : imm[0] = false := getElem_zero_of_even (by simp [immFitsJ] at h; omega)
  conv_rhs => rw [← signExtend_low21 h]
  unfold immJOf encodeJ
  congr 1
  ext i hi
  simp only [BitVec.getElem_append, BitVec.getElem_extractLsb', BitVec.getLsbD_append, BitVec.getLsbD_extractLsb']
  interval_cases i <;> simp [h0]

end Sys2Proof
end

