-- ==== Sys2Proof/Laws/Memory.lean ====
section
/-! SUPPORT. The memory's laws: what a byte reads as after each operation, and that every operation keeps the canonical form. -/

namespace Sys2Proof.Machine

@[simp] theorem byte_nil (a : Nat) : Memory.byte [] a = 0 := rfl

theorem byte_filter_ne (m : Memory) {a x : Nat} (h : x ≠ a) : Memory.byte (m.filter (fun c => c.1 != a)) x = m.byte x := by
  induction m with
  | nil => rfl
  | cons c rest ih =>
    obtain ⟨k, b⟩ := c
    by_cases hk : k = a
    · subst hk
      simp [Memory.byte, Ne.symm h, ih]
    · simp [hk, Memory.byte, ih]

theorem byte_filter_self (m : Memory) (a : Nat) : Memory.byte (m.filter (fun c => c.1 != a)) a = 0 := by
  induction m with
  | nil => rfl
  | cons c rest ih =>
    obtain ⟨k, b⟩ := c
    by_cases hk : k = a
    · simp [hk, ih]
    · simp [hk, Memory.byte, ih]

theorem byte_insert_ne (m : Memory) {a x : Nat} (b : Byte) (h : x ≠ a) : (m.insert a b).byte x = m.byte x := by
  induction m with
  | nil => simp [Memory.insert, Memory.byte, Ne.symm h]
  | cons c rest ih =>
    obtain ⟨k, d⟩ := c
    unfold Memory.insert
    split
    · simp [Memory.byte, Ne.symm h]
    · simp [Memory.byte, ih]

theorem byte_insert_self (m : Memory) (a : Nat) (b : Byte) (h : ∀ c ∈ m, c.1 ≠ a) : (m.insert a b).byte a = b := by
  induction m with
  | nil => simp [Memory.insert, Memory.byte]
  | cons c rest ih =>
    obtain ⟨k, d⟩ := c
    have hk : k ≠ a := h (k, d) (by simp)
    unfold Memory.insert
    split
    · simp [Memory.byte]
    · simp [Memory.byte, hk, ih (fun c hc => h c (by simp [hc]))]

/-- Reading one byte after writing one byte, for every list. -/
theorem byte_setByte (m : Memory) (a x : Nat) (b : Byte) : (m.setByte a b).byte x = if x = a then b else m.byte x := by
  unfold Memory.setByte
  by_cases h : x = a
  · subst h
    split
    · next hb => simp [byte_filter_self, hb, Memory.unlisted]
    · rw [byte_insert_self _ _ _ (by simp)]; simp
  · split <;> simp [h, byte_insert_ne, byte_filter_ne]

/-- Reading one byte after a write of `n` bytes (R63): byte k of the value inside, the old byte outside. -/
theorem byte_writeLE (n : Nat) (m : Memory) (a x : Nat) (v : Word) :
    (m.writeLE a n v).byte x = if a ≤ x ∧ x < a + n then (v >>> (8 * (x - a))).setWidth 8 else m.byte x := by
  induction n generalizing m a v with
  | zero => simp [Memory.writeLE]
  | succ n ih =>
    rw [Memory.writeLE, ih, byte_setByte]
    by_cases h1 : x = a
    · subst h1; simp
    · by_cases h2 : a + 1 ≤ x ∧ x < a + 1 + n
      · have h3 : a ≤ x ∧ x < a + (n + 1) := by omega
        have h4 : 8 + 8 * (x - (a + 1)) = 8 * (x - a) := by omega
        rw [if_pos h2, if_pos h3, ← BitVec.shiftRight_add, h4]
      · have h3 : ¬(a ≤ x ∧ x < a + (n + 1)) := by omega
        rw [if_neg h2, if_neg h3, if_neg h1]

/-- A read of `n` bytes is below 256^n (R62: an unsigned value of 8n bits). -/
theorem readLE_lt (n : Nat) (m : Memory) (a : Nat) : m.readLE a n < 256 ^ n := by
  induction n generalizing a with
  | zero => simp [Memory.readLE]
  | succ n ih =>
    have h1 := ih (a + 1)
    have h2 := (m.byte a).isLt
    rw [Memory.readLE, pow_succ]
    omega

/-- Two memories with the same bytes in the range read the same. -/
theorem readLE_congr (n : Nat) {m m' : Memory} {a : Nat} (h : ∀ x, a ≤ x → x < a + n → m.byte x = m'.byte x) :
    m.readLE a n = m'.readLE a n := by
  induction n generalizing a with
  | zero => rfl
  | succ n ih =>
    rw [Memory.readLE, Memory.readLE, h a (by omega) (by omega), ih (fun x h1 h2 => h x (by omega) (by omega))]

/-- Reading the n bytes just written gives the value modulo 256^n. -/
theorem readLE_writeLE_self (n : Nat) (m : Memory) (a : Nat) (v : Word) :
    (m.writeLE a n v).readLE a n = v.toNat % 256 ^ n := by
  induction n generalizing m a v with
  | zero => simp [Memory.readLE, Nat.mod_one]
  | succ n ih =>
    have hb : (Memory.writeLE m a (n + 1) v).byte a = v.setWidth 8 := by rw [byte_writeLE]; simp
    rw [Memory.readLE, hb, Memory.writeLE, ih]
    simp only [BitVec.toNat_setWidth, BitVec.toNat_ushiftRight, Nat.shiftRight_eq_div_pow, show (2 : Nat) ^ 8 = 256 from rfl]
    rw [Nat.pow_succ, Nat.mul_comm (256 ^ n) 256, Nat.mod_mul]

/-! ## The canonical form -/

theorem wf_nil : Memory.wf [] := by simp [Memory.wf]

theorem wf_filter {m : Memory} (h : m.wf) (a : Nat) : Memory.wf (m.filter (fun c => c.1 != a)) :=
  ⟨h.1.filter _, fun c hc => h.2 c (List.mem_filter.mp hc).1⟩

theorem mem_insert {m : Memory} {a : Nat} {b : Byte} {c : Host.Cell} (h : c ∈ m.insert a b) : c = (a, b) ∨ c ∈ m := by
  induction m with
  | nil => simpa [Memory.insert] using h
  | cons d rest ih =>
    obtain ⟨k, e⟩ := d
    unfold Memory.insert at h
    split at h
    · simpa using h
    · rcases List.mem_cons.mp h with h | h
      · simp [h]
      · rcases ih h with h | h <;> simp [h]

theorem wf_insert {m : Memory} (h : m.wf) {a : Nat} {b : Byte} (hne : ∀ c ∈ m, c.1 ≠ a) (hb : b ≠ Memory.unlisted)
    (ha : a < addressSpace) : (m.insert a b).wf := by
  refine ⟨?_, fun c hc => ?_⟩
  · have hs := h.1
    clear h
    induction m with
    | nil => simp [Memory.insert]
    | cons d rest ih =>
      obtain ⟨k, e⟩ := d
      have hk : k ≠ a := hne (k, e) (by simp)
      rw [List.pairwise_cons] at hs
      unfold Memory.insert
      split
      · next hlt =>
        refine List.pairwise_cons.mpr ⟨fun c hc => ?_, List.pairwise_cons.mpr hs⟩
        rcases List.mem_cons.mp hc with rfl | hc
        · exact hlt
        · exact lt_trans hlt (hs.1 c hc)
      · next hlt =>
        refine List.pairwise_cons.mpr ⟨fun c hc => ?_, ih (fun c hc => hne c (by simp [hc])) hs.2⟩
        rcases mem_insert hc with rfl | hc
        · show k < a; omega
        · exact hs.1 c hc
  · rcases mem_insert hc with rfl | hc
    · exact ⟨hb, ha⟩
    · exact h.2 c hc

/-- Writing one byte of the address space keeps the canonical form. -/
theorem wf_setByte {m : Memory} (h : m.wf) {a : Nat} (b : Byte) (ha : a < addressSpace) : (m.setByte a b).wf := by
  unfold Memory.setByte
  split
  · exact wf_filter h a
  · next hb => exact wf_insert (wf_filter h a) (by simp) hb ha

theorem wf_writeLE (n : Nat) {m : Memory} (h : m.wf) {a : Nat} (v : Word) (ha : a + n ≤ addressSpace) : (m.writeLE a n v).wf := by
  induction n generalizing m a v with
  | zero => exact h
  | succ n ih => exact ih (wf_setByte h _ (by omega)) _ (by omega)

/-- A store that does not cross the top keeps the canonical form. -/
theorem wf_store {m : Memory} (h : m.wf) {addr : Word} {w : Width} (v : Word) (hf : fits addr w = true) : (m.store addr w v).wf :=
  wf_writeLE _ h v (by simpa [fits] using hf)

theorem wf_placeBytes {m : Memory} (h : m.wf) (addr : Word) (bs : List Byte) : (placeBytes m addr bs).wf := by
  induction bs generalizing m addr with
  | nil => exact h
  | cons b bs ih => exact ih (wf_setByte h _ (by have := addr.isLt; unfold addressSpace; omega)) _

theorem wf_placeMap {m : Memory} (h : m.wf) (bs : List (Word × Byte)) : (placeMap m bs).wf := by
  induction bs generalizing m with
  | nil => exact h
  | cons c bs ih => exact ih (wf_setByte h _ (by have := c.1.isLt; unfold addressSpace; omega))

/-- One record keeps the loader's memory canonical. -/
theorem wf_applyRecord {st : LoaderState} (h : st.mem.wf) {aaaa : Word} {tt : Byte} {dd : List Byte} {st' : LoaderState}
    (he : applyRecord st aaaa tt dd = .continue st') : st'.mem.wf := by
  unfold applyRecord at he
  repeat' split at he
  all_goals first
    | (cases he; first | exact wf_placeBytes h _ _ | exact h)
    | cases he

theorem wf_recordBytes {v : Bool} {st : LoaderState} (h : st.mem.wf) {bs : List Byte} {st' : LoaderState}
    (he : recordBytes v st bs = .continue st') : st'.mem.wf := by
  unfold recordBytes at he
  repeat' split at he
  all_goals first
    | exact wf_applyRecord h he
    | cases he

theorem wf_recordLine {v : Bool} {st : LoaderState} (h : st.mem.wf) {l : List Char} {st' : LoaderState}
    (he : recordLine v st l = .continue st') : st'.mem.wf := by
  unfold recordLine at he
  repeat' split at he
  all_goals first
    | exact wf_recordBytes h he
    | cases he

/-- The loader's memory is canonical. -/
theorem wf_loadLines {v : Bool} (ls : List (List Char)) {st : LoaderState} (h : st.mem.wf) {n : Nat} {st' : LoaderState}
    (he : loadLines v st n ls = .ok st') : st'.mem.wf := by
  induction ls generalizing st n with
  | nil => cases he; exact h
  | cons l ls ih =>
    unfold loadLines at he
    repeat' split at he
    · exact ih h he
    · cases he
    · cases he; exact h
    · next hr => exact ih (wf_recordLine h hr) he

end Sys2Proof.Machine
end

