-- ==== Sys2Proof/Laws/State.lean ====
section
/-! SUPPORT. One lemma for each field and each update of the state, and the register file's read-after-write laws. -/

namespace Sys2Proof.Machine

/-! ## writeReg -/

@[simp] theorem writeReg_pc (s : State) (r : RegIdx) (v : Word) : (s.writeReg r v).pc = s.pc := by
  unfold State.writeReg; split <;> rfl
@[simp] theorem writeReg_mem (s : State) (r : RegIdx) (v : Word) : (s.writeReg r v).mem = s.mem := by
  unfold State.writeReg; split <;> rfl
@[simp] theorem writeReg_run (s : State) (r : RegIdx) (v : Word) : (s.writeReg r v).run = s.run := by
  unfold State.writeReg; split <;> rfl
@[simp] theorem writeReg_retired (s : State) (r : RegIdx) (v : Word) : (s.writeReg r v).retired = s.retired := by
  unfold State.writeReg; split <;> rfl
@[simp] theorem writeReg_fuel (s : State) (r : RegIdx) (v : Word) : (s.writeReg r v).fuel = s.fuel := by
  unfold State.writeReg; split <;> rfl

/-- x0 reads 0 in every state (R23). -/
@[simp] theorem readReg_zero (s : State) : s.readReg 0#5 = 0#32 := rfl

/-- A write to x0 is discarded (R23). -/
@[simp] theorem writeReg_zero (s : State) (v : Word) : s.writeReg 0#5 v = s := rfl

theorem regIdx_toNat_ne_zero {r : RegIdx} (h : r ≠ 0#5) : r.toNat ≠ 0 := fun e => h (BitVec.eq_of_toNat_eq e)

/-- Reading the register just written. -/
theorem readReg_writeReg_self (s : State) {r : RegIdx} (v : Word) (h : r ≠ 0#5) : (s.writeReg r v).readReg r = v := by
  have h1 := regIdx_toNat_ne_zero h
  have h2 := r.isLt
  have h3 : r.toNat - 1 < 31 := by omega
  simp [State.writeReg, State.readReg, h, h3]

/-- Reading another register. -/
theorem readReg_writeReg_ne (s : State) {r q : RegIdx} (v : Word) (h : q ≠ r) : (s.writeReg r v).readReg q = s.readReg q := by
  by_cases hr : r = 0#5
  · simp [hr]
  by_cases hq : q = 0#5
  · simp [hq]
  have h1 := regIdx_toNat_ne_zero hr
  have h2 := regIdx_toNat_ne_zero hq
  have h3 : r.toNat ≠ q.toNat := fun e => h (BitVec.eq_of_toNat_eq e.symm)
  have h4 : r.toNat - 1 ≠ q.toNat - 1 := by omega
  simp [State.writeReg, State.readReg, hr, hq, h4]

/-- The register file after a write, whole (R15, R23). -/
theorem readReg_writeReg (s : State) (r q : RegIdx) (v : Word) :
    (s.writeReg r v).readReg q = if q = 0#5 then 0#32 else if q = r then v else s.readReg q := by
  by_cases hq : q = 0#5
  · simp [hq]
  by_cases h : q = r
  · subst h; rw [if_neg hq, if_pos rfl, readReg_writeReg_self s v hq]
  · rw [if_neg hq, if_neg h, readReg_writeReg_ne s v h]

/-! ## advancePc -/

@[simp] theorem advancePc_regs (s : State) (n : Word) (h : Bool) : (s.advancePc n h).regs = s.regs := rfl
@[simp] theorem advancePc_pc (s : State) (n : Word) (h : Bool) : (s.advancePc n h).pc = n := rfl
@[simp] theorem advancePc_mem (s : State) (n : Word) (h : Bool) : (s.advancePc n h).mem = s.mem := rfl
@[simp] theorem advancePc_run (s : State) (n : Word) (h : Bool) :
    (s.advancePc n h).run = if h then .halted else s.run := rfl
@[simp] theorem advancePc_retired (s : State) (n : Word) (h : Bool) : (s.advancePc n h).retired = s.retired + 1 := rfl
@[simp] theorem advancePc_fuel (s : State) (n : Word) (h : Bool) : (s.advancePc n h).fuel = s.fuel := rfl
@[simp] theorem advancePc_readReg (s : State) (n : Word) (h : Bool) (r : RegIdx) :
    (s.advancePc n h).readReg r = s.readReg r := rfl

/-! ## applyRegWrite and applyMemWrite -/

@[simp] theorem applyRegWrite_none (s : State) : s.applyRegWrite none = s := rfl
@[simp] theorem applyRegWrite_some (s : State) (r : RegIdx) (v : Word) : s.applyRegWrite (some (r, v)) = s.writeReg r v := rfl
@[simp] theorem applyRegWrite_mem (s : State) (w : Option (RegIdx × Word)) : (s.applyRegWrite w).mem = s.mem := by
  rcases w with _ | ⟨r, v⟩ <;> simp
@[simp] theorem applyRegWrite_run (s : State) (w : Option (RegIdx × Word)) : (s.applyRegWrite w).run = s.run := by
  rcases w with _ | ⟨r, v⟩ <;> simp
@[simp] theorem applyRegWrite_retired (s : State) (w : Option (RegIdx × Word)) : (s.applyRegWrite w).retired = s.retired := by
  rcases w with _ | ⟨r, v⟩ <;> simp
@[simp] theorem applyRegWrite_fuel (s : State) (w : Option (RegIdx × Word)) : (s.applyRegWrite w).fuel = s.fuel := by
  rcases w with _ | ⟨r, v⟩ <;> simp

@[simp] theorem applyMemWrite_none (s : State) : s.applyMemWrite none = s := rfl
@[simp] theorem applyMemWrite_regs (s : State) (w : Option (Word × Width × Word)) : (s.applyMemWrite w).regs = s.regs := by
  rcases w with _ | ⟨a, n, v⟩ <;> rfl
@[simp] theorem applyMemWrite_run (s : State) (w : Option (Word × Width × Word)) : (s.applyMemWrite w).run = s.run := by
  rcases w with _ | ⟨a, n, v⟩ <;> rfl
@[simp] theorem applyMemWrite_retired (s : State) (w : Option (Word × Width × Word)) :
    (s.applyMemWrite w).retired = s.retired := by
  rcases w with _ | ⟨a, n, v⟩ <;> rfl
@[simp] theorem applyMemWrite_fuel (s : State) (w : Option (Word × Width × Word)) : (s.applyMemWrite w).fuel = s.fuel := by
  rcases w with _ | ⟨a, n, v⟩ <;> rfl
@[simp] theorem applyMemWrite_readReg (s : State) (w : Option (Word × Width × Word)) (r : RegIdx) :
    (s.applyMemWrite w).readReg r = s.readReg r := by
  rcases w with _ | ⟨a, n, v⟩ <;> rfl

/-! ## commit (R52): everything a commit does, field by field -/

@[simp] theorem commit_pc (s : State) (e : Effect) : (s.commit e).pc = e.npc := rfl
@[simp] theorem commit_retired (s : State) (e : Effect) : (s.commit e).retired = s.retired + 1 := by simp [State.commit]
@[simp] theorem commit_fuel (s : State) (e : Effect) : (s.commit e).fuel = s.fuel := by simp [State.commit]
@[simp] theorem commit_run (s : State) (e : Effect) : (s.commit e).run = if e.halt then .halted else s.run := by
  simp [State.commit]
@[simp] theorem commit_readReg (s : State) (e : Effect) (q : RegIdx) :
    (s.commit e).readReg q = (s.applyRegWrite e.regWrite).readReg q := by simp [State.commit]
theorem commit_mem_none (s : State) (e : Effect) (h : e.memWrite = none) : (s.commit e).mem = s.mem := by
  simp [State.commit, h]
theorem commit_mem_some (s : State) (e : Effect) {a : Word} {w : Width} {v : Word} (h : e.memWrite = some (a, w, v)) :
    (s.commit e).mem = s.mem.store a w v := by
  simp [State.commit, State.applyMemWrite, h]

/-! ## The terminal run states -/

@[simp] theorem enterBound_run (s : State) : s.enterBound.run = .boundReached := rfl
@[simp] theorem enterBound_regs (s : State) : s.enterBound.regs = s.regs := rfl
@[simp] theorem enterBound_pc (s : State) : s.enterBound.pc = s.pc := rfl
@[simp] theorem enterBound_mem (s : State) : s.enterBound.mem = s.mem := rfl
@[simp] theorem enterBound_retired (s : State) : s.enterBound.retired = s.retired := rfl
@[simp] theorem enterBound_fuel (s : State) : s.enterBound.fuel = s.fuel := rfl
@[simp] theorem enterFaulted_run (s : State) (f : Fault) : (s.enterFaulted f).run = .faulted f := rfl
@[simp] theorem enterFaulted_regs (s : State) (f : Fault) : (s.enterFaulted f).regs = s.regs := rfl
@[simp] theorem enterFaulted_pc (s : State) (f : Fault) : (s.enterFaulted f).pc = s.pc := rfl
@[simp] theorem enterFaulted_mem (s : State) (f : Fault) : (s.enterFaulted f).mem = s.mem := rfl
@[simp] theorem enterFaulted_retired (s : State) (f : Fault) : (s.enterFaulted f).retired = s.retired := rfl
@[simp] theorem enterFaulted_fuel (s : State) (f : Fault) : (s.enterFaulted f).fuel = s.fuel := rfl

end Sys2Proof.Machine
end

