-- ==== Sys2Proof/Laws/Ops.lean ====
section
/-! SUPPORT. One lemma for each shared operation: everything it can answer; and for `exec`, the shape of every answer. -/

namespace Sys2Proof.Machine

theorem fits_iff (addr : Word) (w : Width) : fits addr w = true ↔ addr.toNat + w.bytes ≤ addressSpace := by simp [fits]

/-- A byte access never crosses the top (R112, R117). -/
theorem fits_byte (addr : Word) : fits addr .byte = true := by
  have := addr.isLt
  rw [fits_iff]; simp only [Width.bytes, addressSpace]; omega

/-- A checked read gives the value when the access fits. -/
theorem loadMem_fits (s : State) {addr : Word} {w : Width} (h : fits addr w = true) :
    s.loadMem addr w = .ok (s.mem.load addr w) := by simp [State.loadMem, h]

/-- A checked read that does not fit is AccessWrap (R66). -/
theorem loadMem_wraps (s : State) {addr : Word} {w : Width} (h : fits addr w = false) :
    s.loadMem addr w = .error (s.wrapFault addr w) := by simp [State.loadMem, h]

/-- The read accessor answers what the step's checked read answers, and nothing where that faults (R77; log 17). -/
theorem readAccessor_eq (p : LaunchParams) (s : State) (addr : Word) (w : Width) :
    readAccessor p s.mem addr w = (s.loadMem addr w).toOption.map (fun v => (v, p.memLatency)) := by
  simp only [readAccessor, State.loadMem]
  split <;> rfl

/-- The write accessor keeps the canonical form (log 16, log 17). -/
theorem wf_writeAccessor {p : LaunchParams} {m m' : Memory} {addr v : Word} {w : Width} {n : Nat} (h : m.wf)
    (hw : writeAccessor p m addr w v = some (m', n)) : m'.wf := by
  simp only [writeAccessor] at hw
  split at hw
  · next hf =>
    cases hw
    exact wf_store h v hf
  · cases hw

/-- A load retires with the extended value or faults, and nothing else. -/
theorem retireLoad_cases (s : State) (rd : RegIdx) (addr : Word) (w : Width) (ext : Word → Word) :
    (fits addr w = true ∧ s.retireLoad rd addr w ext = s.retireReg rd (ext (s.mem.load addr w))) ∨
    (fits addr w = false ∧ s.retireLoad rd addr w ext = .fault (s.wrapFault addr w)) := by
  cases h : fits addr w
  · exact .inr ⟨rfl, by simp [State.retireLoad, loadMem_wraps s h]⟩
  · exact .inl ⟨rfl, by simp [State.retireLoad, loadMem_fits s h]⟩

/-- A store retires with its bytes written or faults, and nothing else. -/
theorem retireStore_cases (s : State) (addr : Word) (w : Width) (v : Word) :
    (fits addr w = true ∧ s.retireStore addr w v = .next (s.commit { memWrite := some (addr, w, v), npc := s.nextPc })) ∨
    (fits addr w = false ∧ s.retireStore addr w v = .fault (s.wrapFault addr w)) := by
  cases h : fits addr w
  · exact .inr ⟨rfl, by simp [State.retireStore, h]⟩
  · exact .inl ⟨rfl, by simp [State.retireStore, h]⟩

/-- The bytes of memory after a store (R63): byte k of the value inside, the old byte outside. -/
theorem byte_store (m : Memory) (addr : Word) (w : Width) (v : Word) (x : Nat) :
    (m.store addr w v).byte x =
      if addr.toNat ≤ x ∧ x < addr.toNat + w.bytes then (v >>> (8 * (x - addr.toNat))).setWidth 8 else m.byte x :=
  byte_writeLE _ _ _ _ _

/-- A word read back right after it is stored, when the store fits (R62, R63). -/
theorem load_store_word (m : Memory) (addr v : Word) : (m.store addr .word v).load addr .word = v := by
  have h : v.toNat % 256 ^ 4 = v.toNat := Nat.mod_eq_of_lt (by have := v.isLt; omega)
  simp only [Memory.load, Memory.store, readLE_writeLE_self, Width.bytes, h, BitVec.ofNat_toNat, BitVec.setWidth_eq]

/-- What an effect may hold for an instruction: a write of its own destination register, the store of its own data access, and the halt
flag for EBREAK alone. -/
def Effect.allowed (e : Effect) (i : Instr) (s : State) : Prop :=
  e.regWrite.map Prod.fst = i.destReg ∧ (e.halt = true ↔ ∃ rd rs1, i = .ebreak rd rs1) ∧
    ((e.memWrite = none ∧ i.format ≠ .S) ∨
      ∃ a w v, e.memWrite = some (a, w, v) ∧ i.format = .S ∧ i.dataAccess s = some (a, w) ∧ fits a w = true)

/-- Everything `exec` can answer: a commit of an allowed effect, or AccessWrap of the instruction's own data access. -/
theorem exec_cases (i : Instr) (s : State) :
    (∃ e : Effect, exec i s = .next (s.commit e) ∧ e.allowed i s) ∨
    (∃ a w, exec i s = .fault (s.wrapFault a w) ∧ i.dataAccess s = some (a, w) ∧ fits a w = false) := by
  have load : ∀ (rd rs1 : RegIdx) (imm : Word) (w : Width) (ext : Word → Word),
      exec i s = s.retireLoad rd (s.effAddr rs1 imm) w ext → i.dataAccess s = some (s.effAddr rs1 imm, w) →
      i.destReg = some rd → (¬ ∃ rd rs1, i = .ebreak rd rs1) → i.format ≠ .S →
      (∃ e : Effect, exec i s = .next (s.commit e) ∧ e.allowed i s) ∨
      (∃ a w, exec i s = .fault (s.wrapFault a w) ∧ i.dataAccess s = some (a, w) ∧ fits a w = false) := by
    intro rd rs1 imm w ext he ha hd hh hf
    rcases retireLoad_cases s rd (s.effAddr rs1 imm) w ext with ⟨_, h2⟩ | ⟨h1, h2⟩
    · exact .inl ⟨_, he.trans h2, hd.symm, by simp [hh], .inl ⟨rfl, hf⟩⟩
    · exact .inr ⟨_, w, he.trans h2, ha, h1⟩
  have store : ∀ (rs1 : RegIdx) (imm : Word) (w : Width) (v : Word),
      exec i s = s.retireStore (s.effAddr rs1 imm) w v → i.dataAccess s = some (s.effAddr rs1 imm, w) →
      i.destReg = none → (¬ ∃ rd rs1, i = .ebreak rd rs1) → i.format = .S →
      (∃ e : Effect, exec i s = .next (s.commit e) ∧ e.allowed i s) ∨
      (∃ a w, exec i s = .fault (s.wrapFault a w) ∧ i.dataAccess s = some (a, w) ∧ fits a w = false) := by
    intro rs1 imm w v he ha hd hh hf
    rcases retireStore_cases s (s.effAddr rs1 imm) w v with ⟨h1, h2⟩ | ⟨h1, h2⟩
    · exact .inl ⟨_, he.trans h2, hd.symm, by simp [hh], .inr ⟨_, _, _, rfl, hf, ha, h1⟩⟩
    · exact .inr ⟨_, w, he.trans h2, ha, h1⟩
  cases i
  case ebreak rd rs1 => exact .inl ⟨_, rfl, rfl, by simp, .inl ⟨rfl, by simp [Instr.format]⟩⟩
  case lb rd rs1 imm => exact load _ _ _ _ _ rfl rfl rfl (by simp) (by simp [Instr.format])
  case lh rd rs1 imm => exact load _ _ _ _ _ rfl rfl rfl (by simp) (by simp [Instr.format])
  case lw rd rs1 imm => exact load _ _ _ _ _ rfl rfl rfl (by simp) (by simp [Instr.format])
  case lbu rd rs1 imm => exact load _ _ _ _ _ rfl rfl rfl (by simp) (by simp [Instr.format])
  case lhu rd rs1 imm => exact load _ _ _ _ _ rfl rfl rfl (by simp) (by simp [Instr.format])
  case sb rs1 rs2 imm => exact store _ _ _ _ rfl rfl rfl (by simp) rfl
  case sh rs1 rs2 imm => exact store _ _ _ _ rfl rfl rfl (by simp) rfl
  case sw rs1 rs2 imm => exact store _ _ _ _ rfl rfl rfl (by simp) rfl
  all_goals exact .inl ⟨_, rfl, rfl, by simp, .inl ⟨rfl, by simp [Instr.format]⟩⟩

end Sys2Proof.Machine
end

