-- ==== Sys2Proof/Laws/PerInstr.lean ====
section
/-! SUPPORT. Laws about every instruction as syntax, one lemma per constructor. -/

namespace Sys2Proof.Laws

/-- The row of opcode_table.json with an instruction's mnemonic, looked up by name. -/
def rowOf (i : Instr) : Option OpcodeRow := opcodeTable.find? (fun r => r.mnemonic == i.mnemonic)

/-- A word masked on the opcode alone. -/
theorem and_opcode (w : Word) : w &&& 0x0000007F#32 = (opcodeOf w).setWidth 32 := by
  ext i hi
  simp only [opcodeOf, BitVec.getElem_and, BitVec.getElem_setWidth, BitVec.getLsbD_extractLsb']
  interval_cases i <;> simp

/-- A word masked on opcode and funct3. -/
theorem and_funct3 (w : Word) : w &&& 0x0000707F#32 = (0#17 ++ funct3Of w ++ 0#5 ++ opcodeOf w : BitVec 32) := by
  apply BitVec.eq_of_getLsbD_eq
  intro i hi
  simp only [opcodeOf, funct3Of, BitVec.getLsbD_and, BitVec.getLsbD_append, BitVec.getLsbD_extractLsb']
  interval_cases i <;> simp

/-- A word masked on opcode, funct3 and funct7. -/
theorem and_funct7 (w : Word) : w &&& 0xFE00707F#32 = (funct7Of w ++ 0#10 ++ funct3Of w ++ 0#5 ++ opcodeOf w : BitVec 32) := by
  apply BitVec.eq_of_getLsbD_eq
  intro i hi
  simp only [opcodeOf, funct3Of, funct7Of, BitVec.getLsbD_and, BitVec.getLsbD_append, BitVec.getLsbD_extractLsb']
  interval_cases i <;> simp

/-- A word masked on opcode, funct3 and the 12-bit immediate field. -/
theorem and_funct12 (w : Word) : w &&& 0xFFF0707F#32 = (funct12Of w ++ 0#5 ++ funct3Of w ++ 0#5 ++ opcodeOf w : BitVec 32) := by
  apply BitVec.eq_of_getLsbD_eq
  intro i hi
  simp only [opcodeOf, funct3Of, funct12Of, BitVec.getLsbD_and, BitVec.getLsbD_append, BitVec.getLsbD_extractLsb']
  interval_cases i <;> simp

/-- The word an instruction encodes to is the one its row of the opcode table accepts. -/
def EncodesRow.Statement (i : Instr) : Prop := ∃ r, rowOf i = some r ∧ r.accepts (encode i) = true

theorem EncodesRow.lui (rd : RegIdx) (imm : Word) : EncodesRow.Statement (.lui rd imm) :=
  ⟨_, rfl, by simp [OpcodeRow.accepts, encode, and_opcode]⟩
theorem EncodesRow.auipc (rd : RegIdx) (imm : Word) : EncodesRow.Statement (.auipc rd imm) :=
  ⟨_, rfl, by simp [OpcodeRow.accepts, encode, and_opcode]⟩
theorem EncodesRow.jal (rd : RegIdx) (imm : Word) : EncodesRow.Statement (.jal rd imm) :=
  ⟨_, rfl, by simp [OpcodeRow.accepts, encode, and_opcode]⟩
theorem EncodesRow.jalr (rd : RegIdx) (rs1 : RegIdx) (imm : Word) : EncodesRow.Statement (.jalr rd rs1 imm) :=
  ⟨_, rfl, by simp [OpcodeRow.accepts, encode, and_funct3]⟩
theorem EncodesRow.beq (rs1 : RegIdx) (rs2 : RegIdx) (imm : Word) : EncodesRow.Statement (.beq rs1 rs2 imm) :=
  ⟨_, rfl, by simp [OpcodeRow.accepts, encode, and_funct3]⟩
theorem EncodesRow.bne (rs1 : RegIdx) (rs2 : RegIdx) (imm : Word) : EncodesRow.Statement (.bne rs1 rs2 imm) :=
  ⟨_, rfl, by simp [OpcodeRow.accepts, encode, and_funct3]⟩
theorem EncodesRow.blt (rs1 : RegIdx) (rs2 : RegIdx) (imm : Word) : EncodesRow.Statement (.blt rs1 rs2 imm) :=
  ⟨_, rfl, by simp [OpcodeRow.accepts, encode, and_funct3]⟩
theorem EncodesRow.bge (rs1 : RegIdx) (rs2 : RegIdx) (imm : Word) : EncodesRow.Statement (.bge rs1 rs2 imm) :=
  ⟨_, rfl, by simp [OpcodeRow.accepts, encode, and_funct3]⟩
theorem EncodesRow.bltu (rs1 : RegIdx) (rs2 : RegIdx) (imm : Word) : EncodesRow.Statement (.bltu rs1 rs2 imm) :=
  ⟨_, rfl, by simp [OpcodeRow.accepts, encode, and_funct3]⟩
theorem EncodesRow.bgeu (rs1 : RegIdx) (rs2 : RegIdx) (imm : Word) : EncodesRow.Statement (.bgeu rs1 rs2 imm) :=
  ⟨_, rfl, by simp [OpcodeRow.accepts, encode, and_funct3]⟩
theorem EncodesRow.lb (rd : RegIdx) (rs1 : RegIdx) (imm : Word) : EncodesRow.Statement (.lb rd rs1 imm) :=
  ⟨_, rfl, by simp [OpcodeRow.accepts, encode, and_funct3]⟩
theorem EncodesRow.lh (rd : RegIdx) (rs1 : RegIdx) (imm : Word) : EncodesRow.Statement (.lh rd rs1 imm) :=
  ⟨_, rfl, by simp [OpcodeRow.accepts, encode, and_funct3]⟩
theorem EncodesRow.lw (rd : RegIdx) (rs1 : RegIdx) (imm : Word) : EncodesRow.Statement (.lw rd rs1 imm) :=
  ⟨_, rfl, by simp [OpcodeRow.accepts, encode, and_funct3]⟩
theorem EncodesRow.lbu (rd : RegIdx) (rs1 : RegIdx) (imm : Word) : EncodesRow.Statement (.lbu rd rs1 imm) :=
  ⟨_, rfl, by simp [OpcodeRow.accepts, encode, and_funct3]⟩
theorem EncodesRow.lhu (rd : RegIdx) (rs1 : RegIdx) (imm : Word) : EncodesRow.Statement (.lhu rd rs1 imm) :=
  ⟨_, rfl, by simp [OpcodeRow.accepts, encode, and_funct3]⟩
theorem EncodesRow.sb (rs1 : RegIdx) (rs2 : RegIdx) (imm : Word) : EncodesRow.Statement (.sb rs1 rs2 imm) :=
  ⟨_, rfl, by simp [OpcodeRow.accepts, encode, and_funct3]⟩
theorem EncodesRow.sh (rs1 : RegIdx) (rs2 : RegIdx) (imm : Word) : EncodesRow.Statement (.sh rs1 rs2 imm) :=
  ⟨_, rfl, by simp [OpcodeRow.accepts, encode, and_funct3]⟩
theorem EncodesRow.sw (rs1 : RegIdx) (rs2 : RegIdx) (imm : Word) : EncodesRow.Statement (.sw rs1 rs2 imm) :=
  ⟨_, rfl, by simp [OpcodeRow.accepts, encode, and_funct3]⟩
theorem EncodesRow.addi (rd : RegIdx) (rs1 : RegIdx) (imm : Word) : EncodesRow.Statement (.addi rd rs1 imm) :=
  ⟨_, rfl, by simp [OpcodeRow.accepts, encode, and_funct3]⟩
theorem EncodesRow.slti (rd : RegIdx) (rs1 : RegIdx) (imm : Word) : EncodesRow.Statement (.slti rd rs1 imm) :=
  ⟨_, rfl, by simp [OpcodeRow.accepts, encode, and_funct3]⟩
theorem EncodesRow.sltiu (rd : RegIdx) (rs1 : RegIdx) (imm : Word) : EncodesRow.Statement (.sltiu rd rs1 imm) :=
  ⟨_, rfl, by simp [OpcodeRow.accepts, encode, and_funct3]⟩
theorem EncodesRow.xori (rd : RegIdx) (rs1 : RegIdx) (imm : Word) : EncodesRow.Statement (.xori rd rs1 imm) :=
  ⟨_, rfl, by simp [OpcodeRow.accepts, encode, and_funct3]⟩
theorem EncodesRow.ori (rd : RegIdx) (rs1 : RegIdx) (imm : Word) : EncodesRow.Statement (.ori rd rs1 imm) :=
  ⟨_, rfl, by simp [OpcodeRow.accepts, encode, and_funct3]⟩
theorem EncodesRow.andi (rd : RegIdx) (rs1 : RegIdx) (imm : Word) : EncodesRow.Statement (.andi rd rs1 imm) :=
  ⟨_, rfl, by simp [OpcodeRow.accepts, encode, and_funct3]⟩
theorem EncodesRow.slli (rd : RegIdx) (rs1 : RegIdx) (shamt : BitVec 5) : EncodesRow.Statement (.slli rd rs1 shamt) :=
  ⟨_, rfl, by simp [OpcodeRow.accepts, encode, and_funct7]⟩
theorem EncodesRow.srli (rd : RegIdx) (rs1 : RegIdx) (shamt : BitVec 5) : EncodesRow.Statement (.srli rd rs1 shamt) :=
  ⟨_, rfl, by simp [OpcodeRow.accepts, encode, and_funct7]⟩
theorem EncodesRow.srai (rd : RegIdx) (rs1 : RegIdx) (shamt : BitVec 5) : EncodesRow.Statement (.srai rd rs1 shamt) :=
  ⟨_, rfl, by simp [OpcodeRow.accepts, encode, and_funct7]⟩
theorem EncodesRow.add (rd : RegIdx) (rs1 : RegIdx) (rs2 : RegIdx) : EncodesRow.Statement (.add rd rs1 rs2) :=
  ⟨_, rfl, by simp [OpcodeRow.accepts, encode, and_funct7]⟩
theorem EncodesRow.sub (rd : RegIdx) (rs1 : RegIdx) (rs2 : RegIdx) : EncodesRow.Statement (.sub rd rs1 rs2) :=
  ⟨_, rfl, by simp [OpcodeRow.accepts, encode, and_funct7]⟩
theorem EncodesRow.sll (rd : RegIdx) (rs1 : RegIdx) (rs2 : RegIdx) : EncodesRow.Statement (.sll rd rs1 rs2) :=
  ⟨_, rfl, by simp [OpcodeRow.accepts, encode, and_funct7]⟩
theorem EncodesRow.slt (rd : RegIdx) (rs1 : RegIdx) (rs2 : RegIdx) : EncodesRow.Statement (.slt rd rs1 rs2) :=
  ⟨_, rfl, by simp [OpcodeRow.accepts, encode, and_funct7]⟩
theorem EncodesRow.sltu (rd : RegIdx) (rs1 : RegIdx) (rs2 : RegIdx) : EncodesRow.Statement (.sltu rd rs1 rs2) :=
  ⟨_, rfl, by simp [OpcodeRow.accepts, encode, and_funct7]⟩
theorem EncodesRow.xor (rd : RegIdx) (rs1 : RegIdx) (rs2 : RegIdx) : EncodesRow.Statement (.xor rd rs1 rs2) :=
  ⟨_, rfl, by simp [OpcodeRow.accepts, encode, and_funct7]⟩
theorem EncodesRow.srl (rd : RegIdx) (rs1 : RegIdx) (rs2 : RegIdx) : EncodesRow.Statement (.srl rd rs1 rs2) :=
  ⟨_, rfl, by simp [OpcodeRow.accepts, encode, and_funct7]⟩
theorem EncodesRow.sra (rd : RegIdx) (rs1 : RegIdx) (rs2 : RegIdx) : EncodesRow.Statement (.sra rd rs1 rs2) :=
  ⟨_, rfl, by simp [OpcodeRow.accepts, encode, and_funct7]⟩
theorem EncodesRow.or (rd : RegIdx) (rs1 : RegIdx) (rs2 : RegIdx) : EncodesRow.Statement (.or rd rs1 rs2) :=
  ⟨_, rfl, by simp [OpcodeRow.accepts, encode, and_funct7]⟩
theorem EncodesRow.and (rd : RegIdx) (rs1 : RegIdx) (rs2 : RegIdx) : EncodesRow.Statement (.and rd rs1 rs2) :=
  ⟨_, rfl, by simp [OpcodeRow.accepts, encode, and_funct7]⟩
theorem EncodesRow.mul (rd : RegIdx) (rs1 : RegIdx) (rs2 : RegIdx) : EncodesRow.Statement (.mul rd rs1 rs2) :=
  ⟨_, rfl, by simp [OpcodeRow.accepts, encode, and_funct7]⟩
theorem EncodesRow.mulh (rd : RegIdx) (rs1 : RegIdx) (rs2 : RegIdx) : EncodesRow.Statement (.mulh rd rs1 rs2) :=
  ⟨_, rfl, by simp [OpcodeRow.accepts, encode, and_funct7]⟩
theorem EncodesRow.mulhsu (rd : RegIdx) (rs1 : RegIdx) (rs2 : RegIdx) : EncodesRow.Statement (.mulhsu rd rs1 rs2) :=
  ⟨_, rfl, by simp [OpcodeRow.accepts, encode, and_funct7]⟩
theorem EncodesRow.mulhu (rd : RegIdx) (rs1 : RegIdx) (rs2 : RegIdx) : EncodesRow.Statement (.mulhu rd rs1 rs2) :=
  ⟨_, rfl, by simp [OpcodeRow.accepts, encode, and_funct7]⟩
theorem EncodesRow.div (rd : RegIdx) (rs1 : RegIdx) (rs2 : RegIdx) : EncodesRow.Statement (.div rd rs1 rs2) :=
  ⟨_, rfl, by simp [OpcodeRow.accepts, encode, and_funct7]⟩
theorem EncodesRow.divu (rd : RegIdx) (rs1 : RegIdx) (rs2 : RegIdx) : EncodesRow.Statement (.divu rd rs1 rs2) :=
  ⟨_, rfl, by simp [OpcodeRow.accepts, encode, and_funct7]⟩
theorem EncodesRow.rem (rd : RegIdx) (rs1 : RegIdx) (rs2 : RegIdx) : EncodesRow.Statement (.rem rd rs1 rs2) :=
  ⟨_, rfl, by simp [OpcodeRow.accepts, encode, and_funct7]⟩
theorem EncodesRow.remu (rd : RegIdx) (rs1 : RegIdx) (rs2 : RegIdx) : EncodesRow.Statement (.remu rd rs1 rs2) :=
  ⟨_, rfl, by simp [OpcodeRow.accepts, encode, and_funct7]⟩
theorem EncodesRow.fence (rd : RegIdx) (rs1 : RegIdx) (imm : Word) : EncodesRow.Statement (.fence rd rs1 imm) :=
  ⟨_, rfl, by simp [OpcodeRow.accepts, encode, and_funct3]⟩
theorem EncodesRow.ecall (rd : RegIdx) (rs1 : RegIdx) : EncodesRow.Statement (.ecall rd rs1) :=
  ⟨_, rfl, by simp [OpcodeRow.accepts, encode, and_funct12]⟩
theorem EncodesRow.ebreak (rd : RegIdx) (rs1 : RegIdx) : EncodesRow.Statement (.ebreak rd rs1) :=
  ⟨_, rfl, by simp [OpcodeRow.accepts, encode, and_funct12]⟩

end Sys2Proof.Laws
end

