-- ==== Sys2Proof/Laws/Step.lean ====
section
/-! SUPPORT. What a step can do, once: the inversions that the invariants are derived from. -/

namespace Sys2Proof.Machine

/-- What fetch and decode can answer: the word at the pc and its instruction, AccessWrap of the fetch, or DecodeError (R48, R49, R158). -/
theorem fetchInstr_cases (s : State) :
    (∃ i, s.fetchInstr = .ok (s.mem.load s.pc .word, i) ∧ fits s.pc .word = true ∧ decode (s.mem.load s.pc .word) = .ok i) ∨
    (s.fetchInstr = .error (s.wrapFault s.pc .word) ∧ fits s.pc .word = false) ∨
    (∃ r, s.fetchInstr = .error (.decodeError s.pc (s.mem.load s.pc .word)) ∧ fits s.pc .word = true ∧
      decode (s.mem.load s.pc .word) = .error r) := by
  cases h : fits s.pc .word
  · exact .inr (.inl ⟨by simp [State.fetchInstr, State.fetch, loadMem_wraps s h], rfl⟩)
  · cases hd : decode (s.mem.load s.pc .word) with
    | ok i => exact .inl ⟨i, by simp [State.fetchInstr, State.fetch, loadMem_fits s h, hd], rfl, rfl⟩
    | error r => exact .inr (.inr ⟨r, by simp [State.fetchInstr, State.fetch, loadMem_fits s h, hd], rfl, rfl⟩)

/-- A step that answers a next state ran from Running, and either reached the bound or executed the fetched instruction. -/
theorem step_next_cases {s t : State} (h : step s = .next t) :
    s.run = .running ∧ ((s.boundExhausted = true ∧ t = s.enterBound) ∨
      (s.boundExhausted = false ∧ ∃ w i, s.fetchInstr = .ok (w, i) ∧ exec i s = .next t)) := by
  unfold step at h
  split at h
  · next hr =>
    refine ⟨hr, ?_⟩
    split at h
    · next hb => cases h; exact .inl ⟨hb, rfl⟩
    · next hb =>
      refine .inr ⟨by simpa using hb, ?_⟩
      split at h
      · next w i hf => exact ⟨w, i, hf, h⟩
      · cases h
  · cases h

/-- A step that faults ran from Running below its bound, and the fault is the fetch's, the decoder's or the data access's (R158). -/
theorem step_fault_cases {s : State} {f : Fault} (h : step s = .fault f) :
    s.run = .running ∧ s.boundExhausted = false ∧
      (s.fetchInstr = .error f ∨ ∃ w i, s.fetchInstr = .ok (w, i) ∧ exec i s = .fault f) := by
  unfold step at h
  split at h
  · next hr =>
    refine ⟨hr, ?_⟩
    split at h
    · cases h
    · next hb =>
      refine ⟨by simpa using hb, ?_⟩
      split at h
      · next w i hf => exact .inr ⟨w, i, hf, h⟩
      · next f' hf => cases h; exact .inl hf
  · cases h

end Sys2Proof.Machine
end

