-- ==== Sys2Proof/Machine/Pseudo.lean ====
section
/-! DEFINITION. The pseudo-instructions of 30_encoding.md R97, each as the instructions it assembles to; the datapath never sees one. -/

namespace Sys2Proof.Machine

/-- The pseudo-instructions of R97, with offsets in place of symbols. -/
inductive Pseudo where
  | nop
  | li (rd : RegIdx) (imm : Word)
  | mv (rd rs : RegIdx)
  | not (rd rs : RegIdx)
  | neg (rd rs : RegIdx)
  | seqz (rd rs : RegIdx)
  | snez (rd rs : RegIdx)
  | sltz (rd rs : RegIdx)
  | sgtz (rd rs : RegIdx)
  | beqz (rs : RegIdx) (off : Word)
  | bnez (rs : RegIdx) (off : Word)
  | blez (rs : RegIdx) (off : Word)
  | bgez (rs : RegIdx) (off : Word)
  | bltz (rs : RegIdx) (off : Word)
  | bgtz (rs : RegIdx) (off : Word)
  | bgt (a b : RegIdx) (off : Word)
  | ble (a b : RegIdx) (off : Word)
  | bgtu (a b : RegIdx) (off : Word)
  | bleu (a b : RegIdx) (off : Word)
  | j (off : Word)
  | jal (off : Word)
  | jr (rs : RegIdx)
  | jalr (rs : RegIdx)
  | ret
  | call (off : Word)
  | tail (off : Word)
  | la (rd : RegIdx) (off : Word)
  | fence
  deriving DecidableEq, Repr

/-- `hi` of R97 as a U immediate: the low 12 bits of `(imm + 0x800)` cleared. -/
def hiPart (imm : Word) : Word := (imm + 0x800) &&& 0xFFFFF000
/-- `lo`: the signed 12-bit rest. -/
def loPart (imm : Word) : Word := (imm.setWidth 12).signExtend 32

/-- The expansion of R97. -/
def Pseudo.expand : Pseudo → List Instr
  | .nop => [.addi 0 0 0]
  | .li rd imm =>
    if -2048 ≤ imm.toInt ∧ imm.toInt ≤ 2047 then [.addi rd 0 imm] else [.lui rd (hiPart imm), .addi rd rd (loPart imm)]
  | .mv rd rs => [.addi rd rs 0]
  | .not rd rs => [.xori rd rs 0xFFFFFFFF]
  | .neg rd rs => [.sub rd 0 rs]
  | .seqz rd rs => [.sltiu rd rs 1]
  | .snez rd rs => [.sltu rd 0 rs]
  | .sltz rd rs => [.slt rd rs 0]
  | .sgtz rd rs => [.slt rd 0 rs]
  | .beqz rs off => [.beq rs 0 off]
  | .bnez rs off => [.bne rs 0 off]
  | .blez rs off => [.bge 0 rs off]
  | .bgez rs off => [.bge rs 0 off]
  | .bltz rs off => [.blt rs 0 off]
  | .bgtz rs off => [.blt 0 rs off]
  | .bgt a b off => [.blt b a off]
  | .ble a b off => [.bge b a off]
  | .bgtu a b off => [.bltu b a off]
  | .bleu a b off => [.bgeu b a off]
  | .j off => [.jal 0 off]
  | .jal off => [.jal 1 off]
  | .jr rs => [.jalr 0 rs 0]
  | .jalr rs => [.jalr 1 rs 0]
  | .ret => [.jalr 0 1 0]
  | .call off => [.auipc 1 (hiPart off), .jalr 1 1 (loPart off)]
  | .tail off => [.auipc 6 (hiPart off), .jalr 0 6 (loPart off)]
  | .la rd off => [.auipc rd (hiPart off), .addi rd rd (loPart off)]
  | .fence => [.fence 0 0 0x0FF]

end Sys2Proof.Machine
end

