-- ==== Sys2Proof/Tests/Slice0.lean ====
section
/-! SUPPORT. The model's own tests. Expected values are those of spec/95_test_vectors.md and of the examples and corner cases of the
instruction rules (files 40 to 45); each section names its source. -/

namespace Sys2Proof.Tests

open Sys2Proof.Machine Sys2Proof.Spec

/-! ## Helpers -/

/-- The next state of an outcome, if it is one. -/
def next? : Host.Outcome State Fault Refusal → Option State
  | .next s => some s
  | _ => none

/-- The fault of an outcome, if it is one. -/
def fault? : Host.Outcome State Fault Refusal → Option Fault
  | .fault f => some f
  | _ => none

/-- A small state: reset with x5 = a, x6 = b and a pc. -/
def ab (a b : Word) (pc : Word := 0) : State := { (State.reset.writeReg 5 a).writeReg 6 b with pc := pc }

/-- The memory of L2.5: bytes 0x100..0x103 = 78 56 34 12 and 0x200..0x201 = 01 80. -/
def loadMemory : Memory := [(0x100, 0x78), (0x101, 0x56), (0x102, 0x34), (0x103, 0x12), (0x200, 0x01), (0x201, 0x80)]

/-- A state with x6 = b over the memory of L2.5. -/
def at6 (b : Word) : State := { ab 0 b with mem := loadMemory }

/-- The value of x7 after an instruction. -/
def x7 (i : Instr) (s : State) : Option Word := (next? (exec i s)).map (fun t => t.readReg 7)

/-- The pc after an instruction. -/
def npc (i : Instr) (s : State) : Option Word := (next? (exec i s)).map (fun t => t.pc)

/-- The byte at an address after an instruction. -/
def byteAfter (i : Instr) (s : State) (a : Nat) : Option Byte := (next? (exec i s)).map (fun t => t.readByte a)

/-- A decoded instruction, if the word is one. -/
def dec? (w : Word) : Option Instr := (decode w).toOption

/-! ## Ill-formed terms, one for each check -/

theorem test_illformed_i : ¬ (Instr.addi 1 0 2048).WellFormed := by decide
theorem test_illformed_s : ¬ (Instr.sw 1 2 (-2049)).WellFormed := by decide
theorem test_illformed_b_odd : ¬ (Instr.beq 1 2 3).WellFormed := by decide
theorem test_illformed_b_range : ¬ (Instr.bgeu 1 2 4096).WellFormed := by decide
theorem test_illformed_u : ¬ (Instr.lui 1 1).WellFormed := by decide
theorem test_illformed_j_odd : ¬ (Instr.jal 1 5).WellFormed := by decide
theorem test_illformed_j_range : ¬ (Instr.jal 1 1048576).WellFormed := by decide
theorem test_illformed_jalr : ¬ (Instr.jalr 1 1 4000).WellFormed := by decide
theorem test_illformed_load : ¬ (Instr.lhu 1 1 (-4000)).WellFormed := by decide
theorem test_illformed_fence : ¬ (Instr.fence 0 0 0x8FF).WellFormed := by decide

/-! ## Decoding: every constructor, the words of the rules' own examples -/

theorem test_decode_lui : dec? 0x100000B7 = some (.lui 1 0x10000000) := by decide
theorem test_decode_auipc : dec? 0x00001297 = some (.auipc 5 0x1000) := by decide
theorem test_decode_jal : dec? 0x008000EF = some (.jal 1 8) := by decide
theorem test_decode_jalr : dec? 0xFFC280E7 = some (.jalr 1 5 (-4)) := by decide
theorem test_decode_beq : dec? 0x00628463 = some (.beq 5 6 8) := by decide
theorem test_decode_bne : dec? 0xFE629CE3 = some (.bne 5 6 (-8)) := by decide
theorem test_decode_blt : dec? 0x0062C463 = some (.blt 5 6 8) := by decide
theorem test_decode_bge : dec? 0x0062D463 = some (.bge 5 6 8) := by decide
theorem test_decode_bltu : dec? 0x0062E463 = some (.bltu 5 6 8) := by decide
theorem test_decode_bgeu : dec? 0xFE62FCE3 = some (.bgeu 5 6 (-8)) := by decide
theorem test_decode_lb : dec? 0x00030383 = some (.lb 7 6 0) := by decide
theorem test_decode_lh : dec? 0x00031383 = some (.lh 7 6 0) := by decide
theorem test_decode_lw : dec? 0x00032383 = some (.lw 7 6 0) := by decide
theorem test_decode_lbu : dec? 0x00034383 = some (.lbu 7 6 0) := by decide
theorem test_decode_lhu : dec? 0x00035383 = some (.lhu 7 6 0) := by decide
theorem test_decode_sb : dec? 0x00C30123 = some (.sb 6 12 2) := by decide
theorem test_decode_sh : dec? 0x005310A3 = some (.sh 6 5 1) := by decide
theorem test_decode_sw : dec? 0xFE532E23 = some (.sw 6 5 (-4)) := by decide
theorem test_decode_addi : dec? 0x00408113 = some (.addi 2 1 4) := by decide
theorem test_decode_slti : dec? 0xFFF2A393 = some (.slti 7 5 (-1)) := by decide
theorem test_decode_sltiu : dec? 0xFFF2B393 = some (.sltiu 7 5 (-1)) := by decide
theorem test_decode_xori : dec? 0xFFF2C393 = some (.xori 7 5 (-1)) := by decide
theorem test_decode_ori : dec? 0xFFF2E393 = some (.ori 7 5 (-1)) := by decide
theorem test_decode_andi : dec? 0xFFF2F393 = some (.andi 7 5 (-1)) := by decide
theorem test_decode_slli : dec? 0x01F29313 = some (.slli 6 5 31) := by decide
theorem test_decode_srli : dec? 0x0012D313 = some (.srli 6 5 1) := by decide
theorem test_decode_srai : dec? 0x41F2D313 = some (.srai 6 5 31) := by decide
theorem test_decode_add : dec? 0x006283B3 = some (.add 7 5 6) := by decide
theorem test_decode_sub : dec? 0x406283B3 = some (.sub 7 5 6) := by decide
theorem test_decode_sll : dec? 0x006293B3 = some (.sll 7 5 6) := by decide
theorem test_decode_slt : dec? 0x0062A3B3 = some (.slt 7 5 6) := by decide
theorem test_decode_sltu : dec? 0x0062B3B3 = some (.sltu 7 5 6) := by decide
theorem test_decode_xor : dec? 0x0062C3B3 = some (.xor 7 5 6) := by decide
theorem test_decode_srl : dec? 0x0062D3B3 = some (.srl 7 5 6) := by decide
theorem test_decode_sra : dec? 0x4062D3B3 = some (.sra 7 5 6) := by decide
theorem test_decode_or : dec? 0x0062E3B3 = some (.or 7 5 6) := by decide
theorem test_decode_and : dec? 0x0062F3B3 = some (.and 7 5 6) := by decide
theorem test_decode_mul : dec? 0x026283B3 = some (.mul 7 5 6) := by decide
theorem test_decode_mulh : dec? 0x026293B3 = some (.mulh 7 5 6) := by decide
theorem test_decode_mulhsu : dec? 0x0262A3B3 = some (.mulhsu 7 5 6) := by decide
theorem test_decode_mulhu : dec? 0x0262B3B3 = some (.mulhu 7 5 6) := by decide
theorem test_decode_div : dec? 0x0262C3B3 = some (.div 7 5 6) := by decide
theorem test_decode_divu : dec? 0x0262D3B3 = some (.divu 7 5 6) := by decide
theorem test_decode_rem : dec? 0x0262E3B3 = some (.rem 7 5 6) := by decide
theorem test_decode_remu : dec? 0x0262F3B3 = some (.remu 7 5 6) := by decide
theorem test_decode_fence : dec? 0x0FF0000F = some (.fence 0 0 0xFF) := by decide
theorem test_decode_ecall : dec? 0x000000F3 = some (.ecall 1 0) := by decide
theorem test_decode_ebreak : dec? 0x00100473 = some (.ebreak 8 0) := by decide

/-! Words written out field by field from R80 to R86 and the values of R89: one of every family. -/

theorem test_bits_lui : dec? (0b00010000000000000000#20 ++ 0b00001#5 ++ 0b0110111#7) = some (.lui 1 0x10000000) := by decide
theorem test_bits_jal : dec? (0b1#1 ++ 0b1111111110#10 ++ 0b1#1 ++ 0b11111111#8 ++ 0b00000#5 ++ 0b1101111#7) = some (.jal 0 (-4)) := by decide
theorem test_bits_jalr : dec? (0b111111111100#12 ++ 0b00101#5 ++ 0b000#3 ++ 0b00001#5 ++ 0b1100111#7) = some (.jalr 1 5 (-4)) := by decide
theorem test_bits_bne :
    dec? (0b1#1 ++ 0b111111#6 ++ 0b00110#5 ++ 0b00101#5 ++ 0b001#3 ++ 0b1100#4 ++ 0b1#1 ++ 0b1100011#7) = some (.bne 5 6 (-8)) := by decide
theorem test_bits_lhu : dec? (0b000000000010#12 ++ 0b00110#5 ++ 0b101#3 ++ 0b01111#5 ++ 0b0000011#7) = some (.lhu 15 6 2) := by decide
theorem test_bits_sw : dec? (0b1111111#7 ++ 0b00101#5 ++ 0b00110#5 ++ 0b010#3 ++ 0b11100#5 ++ 0b0100011#7) = some (.sw 6 5 (-4)) := by decide
theorem test_bits_addi : dec? (0b000000000100#12 ++ 0b00001#5 ++ 0b000#3 ++ 0b00010#5 ++ 0b0010011#7) = some (.addi 2 1 4) := by decide
theorem test_bits_srai : dec? (0b0100000#7 ++ 0b11111#5 ++ 0b00101#5 ++ 0b101#3 ++ 0b00110#5 ++ 0b0010011#7) = some (.srai 6 5 31) := by decide
theorem test_bits_sub : dec? (0b0100000#7 ++ 0b00110#5 ++ 0b00101#5 ++ 0b000#3 ++ 0b00111#5 ++ 0b0110011#7) = some (.sub 7 5 6) := by decide
theorem test_bits_remu : dec? (0b0000001#7 ++ 0b00110#5 ++ 0b00101#5 ++ 0b111#3 ++ 0b00111#5 ++ 0b0110011#7) = some (.remu 7 5 6) := by decide
theorem test_bits_ebreak : dec? (0b000000000001#12 ++ 0b00000#5 ++ 0b000#3 ++ 0b00000#5 ++ 0b1110011#7) = some (.ebreak 0 0) := by decide

/-! L2.1: words that are no instruction, and FENCE.TSO. -/

theorem test_rejected_words :
    (([0x00000000, 0xFFFFFFFF, 0x00000001, 0x40001013, 0x02001013, 0x02005013, 0x40001033, 0x42000033] ++
      [0x00002067, 0x00003003, 0x00006003, 0x00003023, 0x00002063, 0x0000100F, 0x00200073, 0x30200073] ++
      [0x10500073, 0xC00020F3, 0x0000002F, 0x00000007, 0x0000000B, 0x0000001B] : List Word).all fun w => dec? w == none) = true := by decide
theorem test_fence_tso : dec? 0x8330000F = some (.fence 0 0 0xFFFFF833) := by decide

/-! L2.2: immediates at their extremes. -/

theorem test_imm_extremes :
    dec? 0x80000093 = some (.addi 1 0 (-2048)) ∧ dec? 0x7FF00093 = some (.addi 1 0 2047) ∧ dec? 0xFE532FA3 = some (.sw 6 5 (-1)) ∧
    dec? 0x7E000FE3 = some (.beq 0 0 4094) ∧ dec? 0x80000063 = some (.beq 0 0 (-4096)) ∧ dec? 0xFFFFF0B7 = some (.lui 1 0xFFFFF000) ∧
    dec? 0x7FFFF0EF = some (.jal 1 1048574) ∧ dec? 0x8000006F = some (.jal 0 (-1048576)) := by decide

/-- No word is accepted by two rows of the opcode table: any two of its 48 rows differ in a bit that both fix. -/
theorem test_rows_disjoint : opcodeTable.length = 48 ∧ (opcodeTable.all fun r => opcodeTable.all fun q =>
    decide (r.mnemonic = q.mnemonic) || (r.matchBits ^^^ q.matchBits) &&& (r.mask &&& q.mask) != 0) = true := by decide +kernel

theorem test_decodeTableWord : decodeTableWord 32 0x00408113 = some (.addi 2 1 4) := by decide
theorem test_truncated : decodeBytes [0x13, 0x81, 0x40] = .error .truncated := by rfl

/-! ## Upper immediates and control transfer: L2.3, L2.4 -/

theorem test_lui : x7 (.lui 7 0xFFFFF000) State.reset = some 0xFFFFF000 := by decide
theorem test_lui_x0 : (next? (exec (.lui 0 0x12345000) State.reset)).map (fun t => t.regs) = some State.reset.regs := by decide
theorem test_auipc : x7 (.auipc 7 0xFFFFF000) (ab 0 0) = some 0xFFFFF000 := by decide
theorem test_auipc_wraps : x7 (.auipc 7 0x1000) (ab 0 0 0xFFFFF000) = some 0 := by decide
theorem test_jal_link : x7 (.jal 7 8) (ab 0 0 8) = some 0x0C := by decide
theorem test_jal_wraps : npc (.jal 0 (-4)) (ab 0 0) = some 0xFFFFFFFC := by decide
theorem test_jalr_keeps_bit0 : npc (.jalr 1 5 (-4)) (ab 0x1001 0 0x20) = some 0xFFD := by decide
theorem test_jalr_old_rs1 : (next? (exec (.jalr 5 5 0) (ab 0x100 0 0x20))).map (fun t => (t.pc, t.readReg 5)) = some (0x100, 0x24) := by decide
theorem test_beq_taken : npc (.beq 5 6 8) (ab 7 7 0x100) = some 0x108 := by decide
theorem test_beq_not : npc (.beq 5 6 8) (ab 7 8 0x100) = some 0x104 := by decide
theorem test_bne_taken : npc (.bne 5 6 (-8)) (ab 1 0 0x10) = some 0x08 := by decide
theorem test_bne_not : npc (.bne 5 6 (-8)) (ab 1 1 0x10) = some 0x14 := by decide
theorem test_blt_taken : npc (.blt 5 6 8) (ab 0xFFFFFFFF 0) = some 8 := by decide
theorem test_blt_equal : npc (.blt 5 6 8) (ab 5 5) = some 4 := by decide
theorem test_bge_equal : npc (.bge 5 6 8) (ab 0x80000000 0x80000000) = some 8 := by decide
theorem test_bge_not : npc (.bge 5 6 8) (ab 0x80000000 0) = some 4 := by decide
theorem test_bltu_not : npc (.bltu 5 6 8) (ab 0xFFFFFFFF 0) = some 4 := by decide
theorem test_bltu_taken : npc (.bltu 5 6 8) (ab 0 0xFFFFFFFF) = some 8 := by decide
theorem test_bgeu_taken : npc (.bgeu 5 6 (-8)) (ab 0xFFFFFFFF 1 0x10) = some 8 := by decide
theorem test_bgeu_not : npc (.bgeu 5 6 8) (ab 0 1) = some 4 := by decide

/-! ## Loads and stores: L2.5 -/

theorem test_lb : x7 (.lb 7 6 1) (at6 0x200) = some 0xFFFFFF80 := by decide
theorem test_lb_wraps : x7 (.lb 7 6 1) (at6 0xFFFFFFFF) = some 0 := by decide
theorem test_lbu : x7 (.lbu 7 6 1) (at6 0x200) = some 0x80 := by decide
theorem test_lh_misaligned : x7 (.lh 7 6 1) (at6 0x100) = some 0x3456 := by decide
theorem test_lh_sign : x7 (.lh 7 6 0) (at6 0x200) = some 0xFFFF8001 := by decide
theorem test_lhu : x7 (.lhu 7 6 0) (at6 0x200) = some 0x8001 := by decide
theorem test_lw : x7 (.lw 7 6 0) (at6 0x100) = some 0x12345678 := by decide
theorem test_lw_misaligned : x7 (.lw 7 6 1) (at6 0x100) = some 0x00123456 := by decide
theorem test_lh_wrap : fault? (exec (.lh 7 6 0) (at6 0xFFFFFFFF)) = some (.accessWrap 0 0xFFFFFFFF 2) := by decide
theorem test_lw_wrap_x0 : fault? (exec (.lw 0 6 0) (at6 0xFFFFFFFE)) = some (.accessWrap 0 0xFFFFFFFE 4) := by decide
theorem test_accessors_at_top :
    let p : LaunchParams := { image := .bytes [], initRegs := Vector.replicate 31 0 }
    readAccessor p [] 0xFFFFFFFC .word = some (0, 10) ∧ readAccessor p [] 0xFFFFFFFD .word = none ∧
    writeAccessor p [] 0xFFFFFFFF .byte 7 = some ([(0xFFFFFFFF, 7)], 10) ∧ writeAccessor p [] 0xFFFFFFFF .half 7 = none := by decide
theorem test_sb : byteAfter (.sb 6 5 2) (ab 0xFFFFFFFF 0x100) 0x102 = some 0xFF ∧ byteAfter (.sb 6 5 2) (ab 0xFFFFFFFF 0x100) 0x103 = some 0 := by decide
theorem test_sh : byteAfter (.sh 6 5 1) (ab 0xABCD1234 0x100) 0x101 = some 0x34 ∧ byteAfter (.sh 6 5 1) (ab 0xABCD1234 0x100) 0x102 = some 0x12 := by decide
theorem test_sh_wrap : fault? (exec (.sh 6 5 0) (ab 1 0xFFFFFFFF)) = some (.accessWrap 0 0xFFFFFFFF 2) := by decide
theorem test_sw : (next? (exec (.sw 6 5 (-4)) (ab 0x12345678 0x104))).map (fun t => t.mem) = some (loadMemory.take 4) := by decide
theorem test_sw_zero_unlists : (next? (exec (.sw 6 5 0) (at6 0x100))).map (fun t => t.mem) = some (loadMemory.drop 4) := by decide
theorem test_store_keeps_wf : loadMemory.wf := by decide

/-! ## Integer ALU: L2.6, L2.7 -/

theorem test_addi_a : x7 (.addi 7 5 1) (ab 0x7FFFFFFF 0) = some 0x80000000 := by decide
theorem test_addi_b : x7 (.addi 7 5 (-2048)) (ab 5 0) = some 0xFFFFF805 := by decide
theorem test_slti_a : x7 (.slti 7 5 (-1)) (ab 0xFFFFFFFF 0) = some 0 := by decide
theorem test_slti_b : x7 (.slti 7 5 0) (ab 0x80000000 0) = some 1 := by decide
theorem test_sltiu_a : x7 (.sltiu 7 5 (-1)) (ab 5 0) = some 1 := by decide
theorem test_sltiu_b : x7 (.sltiu 7 5 (-1)) (ab 0xFFFFFFFF 0) = some 0 := by decide
theorem test_xori_a : x7 (.xori 7 5 (-1)) (ab 0x12345678 0) = some 0xEDCBA987 := by decide
theorem test_ori_a : x7 (.ori 7 5 2047) (ab 0x100 0) = some 0x7FF := by decide
theorem test_andi_a : x7 (.andi 7 5 255) (ab 0x12345678 0) = some 0x78 := by decide
theorem test_slli_a : x7 (.slli 7 5 4) (ab 0x12345678 0) = some 0x23456780 := by decide
theorem test_slli_b : x7 (.slli 7 5 31) (ab 1 0) = some 0x80000000 := by decide
theorem test_srli_a : x7 (.srli 7 5 31) (ab 0x80000000 0) = some 1 := by decide
theorem test_srai_a : x7 (.srai 7 5 4) (ab 0x80000000 0) = some 0xF8000000 := by decide
theorem test_srai_b : x7 (.srai 7 5 30) (ab 0x40000000 0) = some 1 := by decide
theorem test_add_a : x7 (.add 7 5 6) (ab 0x7FFFFFFF 1) = some 0x80000000 := by decide
theorem test_add_b : x7 (.add 7 5 6) (ab 0xFFFFFFFF 1) = some 0 := by decide
theorem test_sub_a : x7 (.sub 7 5 6) (ab 0 1) = some 0xFFFFFFFF := by decide
theorem test_sub_b : x7 (.sub 7 5 6) (ab 3 0xFFFFFFFF) = some 4 := by decide
theorem test_sll_a : x7 (.sll 7 5 6) (ab 1 0x20) = some 1 := by decide
theorem test_sll_b : x7 (.sll 7 5 6) (ab 0xFFFFFFFF 0xFFFFFFE1) = some 0xFFFFFFFE := by decide
theorem test_slt_a : x7 (.slt 7 5 6) (ab 0x80000000 0x7FFFFFFF) = some 1 := by decide
theorem test_slt_b : x7 (.slt 7 5 6) (ab 0 0xFFFFFFFF) = some 0 := by decide
theorem test_sltu_a : x7 (.sltu 7 5 6) (ab 0 0xFFFFFFFF) = some 1 := by decide
theorem test_sltu_b : x7 (.sltu 7 5 6) (ab 0x80000000 0x7FFFFFFF) = some 0 := by decide
theorem test_xor_a : x7 (.xor 7 5 6) (ab 0xF0F0F0F0 0xFFFFFFFF) = some 0x0F0F0F0F := by decide
theorem test_srl_a : x7 (.srl 7 5 6) (ab 0x80000000 0x21) = some 0x40000000 := by decide
theorem test_srl_b : x7 (.srl 7 5 6) (ab 0xFFFFFFFF 4) = some 0x0FFFFFFF := by decide
theorem test_sra_a : x7 (.sra 7 5 6) (ab 0xF0000000 0x24) = some 0xFF000000 := by decide
theorem test_sra_b : x7 (.sra 7 5 6) (ab 0x7FFFFFFF 0x1F) = some 0 := by decide
theorem test_or_a : x7 (.or 7 5 6) (ab 0xF0F0F0F0 0x0F0F0F0F) = some 0xFFFFFFFF := by decide
theorem test_and_a : x7 (.and 7 5 6) (ab 0xF0F0F0F0 0xFF00FF00) = some 0xF000F000 := by decide

/-! ## Multiply and divide: L2.8 -/

theorem test_mul_a : x7 (.mul 7 5 6) (ab 0x80000000 0xFFFFFFFF) = some 0x80000000 := by decide
theorem test_mul_b : x7 (.mul 7 5 6) (ab 0xFFFFFFF9 2) = some 0xFFFFFFF2 := by decide
theorem test_mulh_a : x7 (.mulh 7 5 6) (ab 0x80000000 0x80000000) = some 0x40000000 := by decide
theorem test_mulh_b : x7 (.mulh 7 5 6) (ab 0xFFFFFFF9 2) = some 0xFFFFFFFF := by decide
theorem test_mulhsu_a : x7 (.mulhsu 7 5 6) (ab 0x7FFFFFFF 0xFFFFFFFF) = some 0x7FFFFFFE := by decide
theorem test_mulhsu_b : x7 (.mulhsu 7 5 6) (ab 0xFFFFFFFF 1) = some 0xFFFFFFFF := by decide
theorem test_mulhu_a : x7 (.mulhu 7 5 6) (ab 0xFFFFFFFF 0xFFFFFFFF) = some 0xFFFFFFFE := by decide
theorem test_mulhu_b : x7 (.mulhu 7 5 6) (ab 0xFFFFFFFF 1) = some 0 := by decide
theorem test_div_a : x7 (.div 7 5 6) (ab 0xFFFFFFF9 2) = some 0xFFFFFFFD := by decide
theorem test_div_b : x7 (.div 7 5 6) (ab 0x80000000 0xFFFFFFFF) = some 0x80000000 := by decide
theorem test_divu_a : x7 (.divu 7 5 6) (ab 0xFFFFFFF9 2) = some 0x7FFFFFFC := by decide
theorem test_divu_b : x7 (.divu 7 5 6) (ab 7 0) = some 0xFFFFFFFF := by decide
theorem test_rem_a : x7 (.rem 7 5 6) (ab 7 0xFFFFFFFE) = some 1 := by decide
theorem test_rem_b : x7 (.rem 7 5 6) (ab 0x80000000 0xFFFFFFFF) = some 0 := by decide
theorem test_remu_a : x7 (.remu 7 5 6) (ab 0x80000000 0xFFFFFFFF) = some 0x80000000 := by decide
theorem test_remu_b : x7 (.remu 7 5 6) (ab 0xFFFFFFF9 0) = some 0xFFFFFFF9 := by decide

/-! ## System, bound and faults: L2.9, L2.10 -/

theorem test_fence : next? (exec (.fence 0 0 0xFF) (ab 1 2 0x40)) = some { ab 1 2 0x44 with retired := 1 } := by decide
theorem test_ecall : next? (exec (.ecall 1 0) (ab 1 2 0x40)) = some { ab 1 2 0x44 with retired := 1 } := by decide
theorem test_ebreak : next? (exec (.ebreak 0 0) (ab 1 2 0x40)) = some { ab 1 2 0x44 with retired := 1, run := .halted } := by decide
theorem test_fuel_zero : next? (step { State.reset with fuel := some 0 }) = some { State.reset with fuel := some 0, run := .boundReached } := by decide
theorem test_fetch_wrap : fault? (step { State.reset with pc := 0xFFFFFFFE }) = some (.accessWrap 0xFFFFFFFE 0xFFFFFFFE 4) := by decide
theorem test_decode_error : fault? (step State.reset) = some (.decodeError 0 0) := by decide
theorem test_wrap_to_zero :
    (next? (step ({ State.reset with pc := 0xFFFFFFFC }.withFetchWord 32 0x13))).map (fun t => (t.pc, t.run)) = some (0, .running) := by decide
theorem test_misaligned_fetch : (next? (step ({ State.reset with pc := 0x102 }.withFetchWord 32 0x13))).map (fun t => t.pc) = some 0x106 := by decide
theorem test_withFetchWord_runs : (next? (step (State.reset.withFetchWord 32 0x100000B7))).map (fun t => t.readReg 1) = some 0x10000000 := by decide

/-! ## Loader and launch: L1 E8, L2.11 -/

/-- The image of E8. -/
def imageE8 : List Char := ":02010000DEAD72\n:00000001FF\n".toList

theorem test_hex_data : loadHex true imageE8 = .ok (none, [(0x100, 0xDE), (0x101, 0xAD)]) := by rfl
theorem test_hex_segment_base : loadHex false ":020000021000EC\r\n\n :02000000dead73".toList = .ok (none, [(0x10000, 0xDE), (0x10001, 0xAD)]) := by rfl
theorem test_hex_segment_entry : loadHex false ":0400000310000020C9".toList = .ok (some 0x00010020, []) := by rfl
theorem test_hex_last_entry : loadHex true ":0400000500010000F6\n:0400000500020000F5".toList = .ok (some 0x00020000, []) := by rfl
theorem test_hex_linear_base : loadHex true ":020000040001F9\n:0100040007F4".toList = .ok (none, [(0x10004, 7)]) := by rfl
theorem test_hex_later_wins : loadHex true ":02010000DEAD72\n:02010000BEEF50".toList = .ok (none, [(0x100, 0xBE), (0x101, 0xEF)]) := by rfl
theorem test_hex_eof_stops : loadHex true ":00000001FF\ngarbage".toList = .ok (none, []) := by rfl
theorem test_hex_no_colon : loadHex false "020000040001F9".toList = .error 1 := by rfl
theorem test_hex_count : loadHex false ":0200000400FA".toList = .error 1 := by rfl
theorem test_hex_type : loadHex false "\n:00000006FA".toList = .error 2 := by rfl
theorem test_hex_length : loadHex false ":0100000400FB".toList = .error 1 := by rfl
theorem test_hex_checksum_off : loadHex false ":020000040001F8".toList = .ok (none, []) := by rfl
theorem test_hex_checksum_on : loadHex true ":020000040001F8".toList = .error 1 := by rfl

/-- The launch of E8's image with parameters. -/
def launchE8 (entry sp : Option Word) : Host.Outcome State Fault Refusal :=
  launch { image := .hex imageE8, entryOverride := entry, spInit := sp, initRegs := Vector.replicate 31 9 }

theorem test_launch_no_entry : launchE8 none none = .refused .noEntry := by rfl
theorem test_launch_memory : (next? (launchE8 (some 4) none)).map (fun s => s.mem) = some [(0x100, 0xDE), (0x101, 0xAD)] := by rfl
theorem test_hex_digits :
    ("09AFaf".toList.map hexDigit = [some 0, some 9, some 10, some 15, some 10, some 15]) ∧
    ("/:@G`g".toList.map hexDigit = [none, none, none, none, none, none]) := by decide
theorem test_launch_sp : (next? (launchE8 (some 4) (some 7))).map (fun s => (s.pc, s.readReg 1, s.readReg 2, s.readReg 3)) = some (4, 9, 7, 9) := by decide
theorem test_launch_load_error : launch { image := .hex [':'], initRegs := Vector.replicate 31 0 } = .fault (.loadError 1) := by rfl
theorem test_reset_is_a_launch :
    launch { image := .bytes [], entryOverride := some 0, initRegs := Vector.replicate 31 0 } = .next State.reset := by rfl

/-! ## Trace: L2.12, and the fixed parts of R163 -/

theorem test_record_add :
    (retireRecord ((ab 7 1).withFetchWord 32 0x006282B3)).map (fun r => r.touched) = some [(5, 8), (5, 7), (6, 1)] := by decide
theorem test_record_sw :
    (retireRecord ((ab 1 0x100).withFetchWord 32 0x00532023)).map (fun r => r.touched) = some [(6, 0x100), (5, 1)] := by decide
theorem test_record_fence : (retireRecord (State.reset.withFetchWord 32 0x0FF0000F)).map (fun r => r.touched) = some [] := by decide
theorem test_line_lui :
    (retireRecord ({ State.reset with pc := 0x10000 }.withFetchWord 32 0x100000B7)).map (fun r => r.fixedParts) =
      some ["PC=00010000", "[100000B7]", "x01=10000000"] := by decide
theorem test_alias_kept : disassemble { aliases := true } 0 (.blt 5 6 8) = "blt      t0, t1, 0x8" := by decide
theorem test_disassemble : disassemble {} 0x10 (.bne 5 6 (-8)) = "bne      t0, t1, 0x8" := by decide

/-! R97. -/

theorem test_pseudo_nop : Pseudo.nop.expand.map encode = [0x00000013] := by decide
theorem test_pseudo_fence : Pseudo.fence.expand.map encode = [0x0FF0000F] := by decide
theorem test_pseudo_li : (Pseudo.li 5 0x12345FFF).expand = [.lui 5 0x12346000, .addi 5 5 (-1)] := by decide

/-! ## Witnesses: for every obligation with hypotheses, concrete data that meet them, clause by clause, at the boundaries of their ranges -/

/-- The fields a `DecodesI`, `DecodesS` or `DecodesB` premise fixes. -/
def fixesI (w : Word) (op : BitVec 7) (f3 : BitVec 3) : Bool := w.extractLsb' 0 7 == op && w.extractLsb' 12 3 == f3

/-- The fields a `DecodesR` or `DecodesShift` premise fixes. -/
def fixesR (w : Word) (op : BitVec 7) (f3 : BitVec 3) (f7 : BitVec 7) : Bool := fixesI w op f3 && w.extractLsb' 25 7 == f7

/-- The state after an instruction. -/
def after (i : Instr) (s : State) : State := (next? (exec i s)).getD s

/-- A state with a word at its pc. -/
def fetching (w : Word) (s : State) : State := { s with mem := s.mem.store s.pc .word w }

theorem witness_RegisterZeroIsHardwired : (31#5 : RegIdx) ≠ 0 ∧ (1#5 : RegIdx) ≠ 0 ∧ (0#5 : RegIdx) ≠ 31 := by decide
theorem witness_OnlyReg : (7#5 : RegIdx) ≠ 0 ∧ (0#5 : RegIdx) ≠ 7 := by decide
theorem witness_LuiWritesTheUpperImmediate : (0x100000B7 : Word).extractLsb' 0 7 = 0b0110111#7 := by decide
theorem witness_AuipcAddsTheUpperImmediateToThePc : (0x00001297 : Word).extractLsb' 0 7 = 0b0010111#7 := by decide
theorem witness_JalLinksAndJumps : (0x008000EF : Word).extractLsb' 0 7 = 0b1101111#7 := by decide
theorem witness_JalrLinksAndJumpsToTheOldRegister : fixesI 0xFFC280E7 0b1100111 0b000 = true := by decide
theorem witness_BranchesCompareTwoRegisters_words :
    fixesI 0x00628463 0b1100011 0b000 ∧ fixesI 0xFE629CE3 0b1100011 0b001 ∧ fixesI 0x0062C463 0b1100011 0b100 ∧
    fixesI 0x0062D463 0b1100011 0b101 ∧ fixesI 0x0062E463 0b1100011 0b110 ∧ fixesI 0xFE62FCE3 0b1100011 0b111 := by decide
/-- Taken and not taken for each condition, at the values where signed and unsigned order differ. -/
theorem witness_BranchesCompareTwoRegisters_conditions :
    let s := ab 0xFFFFFFFF 0
    let e := ab 5 5
    (e.readReg 5 = e.readReg 6 ∧ s.readReg 5 ≠ s.readReg 6) ∧
    ((s.readReg 5).toInt < (s.readReg 6).toInt ∧ ¬ (e.readReg 5).toInt < (e.readReg 6).toInt) ∧
    ((e.readReg 5).toInt ≥ (e.readReg 6).toInt ∧ ¬ (s.readReg 5).toInt ≥ (s.readReg 6).toInt) ∧
    ((s.readReg 6).toNat < (s.readReg 5).toNat ∧ ¬ (s.readReg 5).toNat < (s.readReg 6).toNat) ∧
    ((s.readReg 5).toNat ≥ (s.readReg 6).toNat ∧ ¬ (s.readReg 6).toNat ≥ (s.readReg 5).toNat) := by decide
theorem witness_ByteLoadsExtendTheByte : fixesI 0x00030383 0b0000011 0b000 ∧ fixesI 0x00034383 0b0000011 0b100 := by decide
theorem witness_HalfwordLoadsExtendTheHalfword :
    (fixesI 0x00031383 0b0000011 0b001 ∧ fixesI 0x00035383 0b0000011 0b101) ∧
    ((at6 0xFFFFFFFE).readReg 6 + 0).toNat + 2 ≤ 4294967296 ∧ 4294967296 < ((at6 0xFFFFFFFE).readReg 6 + 1).toNat + 2 ∧
    ((at6 0xFFFFFFFE).readReg 6 + 2).toNat + 2 ≤ 4294967296 := by decide
theorem witness_WordLoadsReadFourBytes :
    fixesI 0x00032383 0b0000011 0b010 ∧
    ((at6 0xFFFFFFFC).readReg 6 + 0).toNat + 4 ≤ 4294967296 ∧ 4294967296 < ((at6 0xFFFFFFFC).readReg 6 + 1).toNat + 4 ∧
    4294967296 < ((at6 0xFFFFFFFC).readReg 6 + 3).toNat + 4 ∧ ((at6 0xFFFFFFFC).readReg 6 + 4).toNat + 4 ≤ 4294967296 := by decide
theorem witness_StoreByteChangesOneByte :
    fixesI 0x00C30123 0b0100011 0b000 ∧ (0 < 1) ∧ 0xFE < ((at6 0xFF).readReg 6).toNat ∧ ((at6 0xFF).readReg 6).toNat + 1 ≤ 0x100 := by decide
theorem witness_HalfwordAndWordStores :
    (fixesI 0x005310A3 0b0100011 0b001 ∧ fixesI 0xFE532E23 0b0100011 0b010) ∧
    ((ab 1 0xFFFFFFFE).readReg 6 + 0).toNat + 2 ≤ 4294967296 ∧ 4294967296 < ((ab 1 0xFFFFFFFF).readReg 6 + 0).toNat + 2 ∧
    ((ab 1 0xFFFFFFFC).readReg 6 + 0).toNat + 4 ≤ 4294967296 ∧ 4294967296 < ((ab 1 0xFFFFFFFD).readReg 6 + 0).toNat + 4 := by decide
theorem witness_StoredWordLoadsBack :
    let s := ab 0x12345678 0xFFFFFFFC
    let t := after (.sw 6 5 0) s
    (7#5 : RegIdx) ≠ 0 ∧ exec (.sw 6 5 0) s = .next t ∧ exec (.lw 7 6 0) t = .next (after (.lw 7 6 0) t) := ⟨by decide, rfl, rfl⟩
theorem witness_ImmediateArithmetic :
    fixesI 0x00408113 0b0010011 0b000 ∧ fixesI 0xFFF2A393 0b0010011 0b010 ∧ fixesI 0xFFF2B393 0b0010011 0b011 ∧
    fixesI 0xFFF2C393 0b0010011 0b100 ∧ fixesI 0xFFF2E393 0b0010011 0b110 ∧ fixesI 0xFFF2F393 0b0010011 0b111 := by decide
theorem witness_RightShiftImmediates :
    fixesR 0x0012D313 0b0010011 0b101 0b0000000 ∧ fixesR 0x41F2D313 0b0010011 0b101 0b0100000 := by decide
theorem witness_LeftShiftImmediate :
    fixesR 0x01F29313 0b0010011 0b001 0b0000000 ∧ fixesI 0x40001013 0b0010011 0b001 ∧
    (0x40001013 : Word).extractLsb' 25 7 ≠ 0b0000000#7 ∧ fixesI 0x02001013 0b0010011 0b001 ∧
    (0x02001013 : Word).extractLsb' 25 7 ≠ 0b0000000#7 := by decide
theorem witness_RegisterAddSubtractCompare :
    fixesR 0x006283B3 0b0110011 0b000 0b0000000 ∧ fixesR 0x406283B3 0b0110011 0b000 0b0100000 ∧
    fixesR 0x0062A3B3 0b0110011 0b010 0b0000000 ∧ fixesR 0x0062B3B3 0b0110011 0b011 0b0000000 := by decide
theorem witness_RegisterShiftsMaskTheAmount :
    fixesR 0x006293B3 0b0110011 0b001 0b0000000 ∧ fixesR 0x0062D3B3 0b0110011 0b101 0b0000000 ∧
    fixesR 0x4062D3B3 0b0110011 0b101 0b0100000 := by decide
theorem witness_RegisterLogic :
    fixesR 0x0062C3B3 0b0110011 0b100 0b0000000 ∧ fixesR 0x0062E3B3 0b0110011 0b110 0b0000000 ∧
    fixesR 0x0062F3B3 0b0110011 0b111 0b0000000 := by decide
theorem witness_MultiplyHalves :
    fixesR 0x026283B3 0b0110011 0b000 0b0000001 ∧ fixesR 0x026293B3 0b0110011 0b001 0b0000001 ∧
    fixesR 0x0262A3B3 0b0110011 0b010 0b0000001 ∧ fixesR 0x0262B3B3 0b0110011 0b011 0b0000001 := by decide
theorem witness_MultiplyHalvesMakeTheProduct :
    let s := ab 0x80000000 0xFFFFFFFF
    (7#5 : RegIdx) ≠ 0 ∧ exec (.mul 7 5 6) s = .next (after (.mul 7 5 6) s) ∧ exec (.mulh 7 5 6) s = .next (after (.mulh 7 5 6) s) ∧
    exec (.mulhsu 7 5 6) s = .next (after (.mulhsu 7 5 6) s) ∧ exec (.mulhu 7 5 6) s = .next (after (.mulhu 7 5 6) s) :=
  ⟨by decide, rfl, rfl, rfl, rfl⟩
theorem witness_DivisionTruncatesTowardZero :
    fixesR 0x0262C3B3 0b0110011 0b100 0b0000001 ∧ fixesR 0x0262D3B3 0b0110011 0b101 0b0000001 ∧
    fixesR 0x0262E3B3 0b0110011 0b110 0b0000001 ∧ fixesR 0x0262F3B3 0b0110011 0b111 0b0000001 := by decide
/-- Minus 7 by 2; and -2^31 by -1, where the signed clause does not apply. -/
theorem witness_QuotientAndRemainderRecompose :
    let s := ab 0xFFFFFFF9 2
    ((7#5 : RegIdx) ≠ 0 ∧ s.readReg 6 ≠ 0 ∧ ¬ (s.readReg 5 = 0x80000000 ∧ s.readReg 6 = 0xFFFFFFFF)) ∧
    exec (.div 7 5 6) s = .next (after (.div 7 5 6) s) ∧ exec (.rem 7 5 6) s = .next (after (.rem 7 5 6) s) ∧
    exec (.divu 7 5 6) s = .next (after (.divu 7 5 6) s) ∧ exec (.remu 7 5 6) s = .next (after (.remu 7 5 6) s) :=
  ⟨by decide, rfl, rfl, rfl, rfl⟩
theorem witness_EcallChangesOnlyPcAndCount :
    fixesI 0x000000F3 0b1110011 0b000 ∧ (0x000000F3 : Word).extractLsb' 20 12 = 0x000#12 := by decide
theorem witness_FenceChangesOnlyPcAndCount :
    fixesI 0x0FF0000F 0b0001111 0b000 ∧ (0x0000100F : Word).extractLsb' 0 7 = 0b0001111#7 ∧
    (0x0000100F : Word).extractLsb' 12 3 ≠ 0b000#3 := by decide
theorem witness_EbreakRetiresAndHalts :
    let s := fetching 0x00100073 State.reset
    (fixesI 0x00100473 0b1110011 0b000 ∧ (0x00100473 : Word).extractLsb' 20 12 = 0x001#12) ∧
    Steps s ∧ s.pc.toNat + 4 ≤ 4294967296 ∧ decode (word s s.pc) = .ok (.ebreak 0 0) :=
  ⟨by decide, ⟨rfl, by decide⟩, by decide, rfl⟩
theorem witness_OnlyTheDestinationRegisterChanges :
    exec (.add 7 5 6) (ab 1 2) = .next (after (.add 7 5 6) (ab 1 2)) ∧ (Instr.add 7 5 6).destReg ≠ some 5 := ⟨rfl, by decide⟩
theorem witness_OnlyStoredBytesChange :
    exec (.sh 6 5 0) (ab 1 0x100) = .next (after (.sh 6 5 0) (ab 1 0x100)) ∧
    (∀ ea w, (Instr.sh 6 5 0).format = .S → (Instr.sh 6 5 0).dataAccess (ab 1 0x100) = some (ea, w) →
      0x102 < ea.toNat ∨ ea.toNat + w.bytes ≤ 0x102) ∧
    ∀ ea w, (Instr.add 7 5 6).format = .S → (Instr.add 7 5 6).dataAccess (ab 1 0x100) = some (ea, w) →
      0x100 < ea.toNat ∨ ea.toNat + w.bytes ≤ 0x100 := by
  refine ⟨rfl, ?_, ?_⟩
  · intro ea w _ h
    cases h
    decide
  · intro ea w h
    cases h
theorem witness_NextPcIsTargetOrFallThrough :
    exec (.beq 5 6 8) (ab 7 7) = .next (after (.beq 5 6 8) (ab 7 7)) ∧ (Instr.beq 5 6 8).format = .B ∧
    Taken (ab 7 7) (.beq 5 6 8) ∧ ¬ Taken (ab 7 8) (.beq 5 6 8) ∧ (∀ rd imm, Instr.beq 5 6 8 ≠ .jal rd imm) ∧
    ∀ rd rs1 imm, Instr.beq 5 6 8 ≠ .jalr rd rs1 imm := by
  refine ⟨rfl, rfl, ?_, ?_, ?_, ?_⟩
  · show (ab 7 7).readReg 5 = (ab 7 7).readReg 6
    decide
  · show ¬ (ab 7 8).readReg 5 = (ab 7 8).readReg 6
    decide
  · intro _ _ h
    cases h
  · intro _ _ _ h
    cases h
theorem witness_OnlyDataAccessAcrossTheTopFaults :
    exec (.lw 7 6 0) (ab 0 0xFFFFFFFD) = .fault (.accessWrap 0 0xFFFFFFFD 4) ∧
    (Instr.lw 7 6 0).dataAccess (ab 0 0xFFFFFFFD) = some (0xFFFFFFFD, .word) := ⟨rfl, rfl⟩
theorem witness_CountIsInvisibleToInstructions :
    let s := ab 1 2
    let u := { s with retired := 9, fuel := some 3, run := .halted }
    SameRegs s u ∧ u.pc = s.pc ∧ u.mem = s.mem ∧ exec (.add 7 5 6) s = .next (after (.add 7 5 6) s) :=
  ⟨fun _ => rfl, rfl, rfl, rfl⟩
theorem witness_StepExecutesTheDecodedInstruction :
    let s := fetching 0x006283B3 { ab 1 2 with pc := 0xFFFFFFFC }
    Steps s ∧ s.pc.toNat + 4 ≤ 4294967296 ∧ decode (word s s.pc) = .ok (.add 7 5 6) := ⟨⟨rfl, by decide⟩, by decide, rfl⟩
/-- Both outcomes: an ADD, and the all-zero word of memory nothing has written (R92). -/
theorem witness_IllegalWordFaultsAndCommitsNothing :
    let s := fetching 0x006283B3 (ab 1 2)
    (Steps s ∧ s.pc.toNat + 4 ≤ 4294967296 ∧ step s = exec (.add 7 5 6) s) ∧
    Steps State.reset ∧ State.reset.pc.toNat + 4 ≤ 4294967296 ∧ step State.reset = .fault (.decodeError 0 0) :=
  ⟨⟨⟨rfl, by decide⟩, by decide, rfl⟩, ⟨rfl, by decide⟩, by decide, rfl⟩
theorem witness_FetchAcrossTheTopFaults :
    let s := { State.reset with pc := 0xFFFFFFFD }
    Steps s ∧ 4294967296 < s.pc.toNat + 4 := ⟨⟨rfl, by decide⟩, by decide⟩
theorem witness_ExhaustedBoundStopsBeforeTheFetch :
    let s := { State.reset with retired := 3, fuel := some 3, pc := 0xFFFFFFFF }
    s.run = .running ∧ s.fuel = some s.retired := by decide
theorem witness_TerminalStatesAreNeverLeft :
    (after (.ebreak 0 0) State.reset).run ≠ .running ∧ (advance State.reset).run = .faulted (.decodeError 0 0) ∧
    (advance { State.reset with fuel := some 0 }).run = .boundReached := ⟨by decide, rfl, rfl⟩
theorem witness_OnlyEbreakHaltsTheRun :
    let s := fetching 0x00100473 State.reset
    step s = .next (after (.ebreak 8 0) s) ∧ (after (.ebreak 8 0) s).run = .halted := ⟨rfl, rfl⟩
theorem witness_FatalErrorsArePrecise :
    step State.reset = .fault (.decodeError 0 0) ∧
    step (fetching 0x00032383 (ab 0 0xFFFFFFFD)) = .fault (.accessWrap 0 0xFFFFFFFD 4) := ⟨rfl, rfl⟩
theorem witness_NextFetchSeesTheStoredWord :
    let s := { ab 0x006283B3 4 with fuel := some 2 }
    Steps s ∧ (s.pc + 4).toNat + 4 ≤ 4294967296 ∧ s.readReg 6 + 0 = s.pc + 4 ∧ s.fuel ≠ some (s.retired + 1) ∧
    decode (s.readReg 5) = .ok (.add 7 5 6) ∧ exec (.sw 6 5 0) s = .next (after (.sw 6 5 0) s) :=
  ⟨⟨rfl, by decide⟩, by decide, by decide, by decide, rfl, rfl⟩
theorem witness_NarrowReadsSeeTheStoredWord : (0xFFFFFFFC : Word).toNat + 4 ≤ 4294967296 := by decide
theorem witness_CanonicalMemoriesAreDeterminedByTheirBytes :
    Memory.wf loadMemory ∧ Memory.wf ((Memory.setByte [] 0x201 0x80).setByte 0x100 0x78) := by decide
theorem witness_DecodeInvertsEncode : (Instr.beq 5 6 (-4096)).WellFormed ∧ (Instr.fence 31 31 0xFFFFF800).WellFormed := by decide
theorem witness_EncodeInvertsDecode : decode 0x8330000F = .ok (.fence 0 0 0xFFFFF833) := rfl
/-- Each case (a) to (d) of R91, and a legal word. -/
theorem witness_DecodeErrorExactlyForIllegalWords :
    (0x00000000 : Word).extractLsb' 0 7 ∉ topOpcodes ∧
    (funct3Table 0b0000011 = some [0b000, 0b001, 0b010, 0b100, 0b101] ∧ (0x00003003 : Word).extractLsb' 12 3 ∉ [0b000#3, 0b001, 0b010, 0b100, 0b101]) ∧
    (funct7Table 0b0110011 0b001 = some [0b0000000, 0b0000001] ∧ (0x40001033 : Word).extractLsb' 25 7 ∉ [0b0000000#7, 0b0000001]) ∧
    (0x00200073 : Word).extractLsb' 20 12 ≠ 0#12 ∧ (0x00200073 : Word).extractLsb' 20 12 ≠ 1#12 ∧
    Steps State.reset ∧ State.reset.pc.toNat + 4 ≤ 4294967296 := ⟨by decide, by decide, by decide, by decide, by decide, ⟨rfl, by decide⟩, by decide⟩
theorem witness_DecoderAgreesWithTheOpcodeTable :
    decode 0x41F2D313 = .ok (.srai 6 5 31) ∧ (⟨"SRAI", 0x40005013, 0xfe00707f⟩ : OpcodeRow) ∈ opcodeTable ∧
    (⟨"SRAI", 0x40005013, 0xfe00707f⟩ : OpcodeRow).accepts 0x41F2D313 = true ∧ (decode 0x00003003).toOption = none :=
  ⟨rfl, by decide, by decide, by decide⟩
theorem witness_ImmediatesHaveTheirFormatsRange :
    (decode 0x80000093 = .ok (.addi 1 0 (-2048)) ∧ (Instr.addi 1 0 (-2048)).format = .I) ∧
    (decode 0xFE532FA3 = .ok (.sw 6 5 (-1)) ∧ (Instr.sw 6 5 (-1)).format = .S) ∧
    (decode 0x7E000FE3 = .ok (.beq 0 0 4094) ∧ (Instr.beq 0 0 4094).format = .B) ∧
    (decode 0xFFFFF0B7 = .ok (.lui 1 0xFFFFF000) ∧ (Instr.lui 1 0xFFFFF000).format = .U) ∧
    (decode 0x8000006F = .ok (.jal 0 (-1048576)) ∧ (Instr.jal 0 (-1048576)).format = .J) ∧
    (Instr.jal 0 (-1048576)).imm = some (-1048576) := ⟨⟨rfl, rfl⟩, ⟨rfl, rfl⟩, ⟨rfl, rfl⟩, ⟨rfl, rfl⟩, ⟨rfl, rfl⟩, rfl⟩
/-- Both sources of the entry, and x2 with and without SP_INIT. -/
theorem witness_LaunchedStateIsAsTheSpecSays :
    let p : LaunchParams := { image := .hex imageE8, entryOverride := some 4, spInit := some 7, initRegs := Vector.replicate 31 9 }
    let q : LaunchParams := { image := .hex ":0400000500010000F6".toList, initRegs := Vector.replicate 31 9 }
    (∃ s, launch p = .next s) ∧ (∃ s, launch q = .next s) ∧ q.entryOverride = none ∧ q.spInit = none ∧
    p.spInit ≠ none ∧ (0 : Fin 31).val ≠ 1 := ⟨⟨_, rfl⟩, ⟨_, rfl⟩, rfl, rfl, by decide, by decide⟩
theorem witness_DataRecordPlacesItsBytes :
    let st : LoaderState := { base := 0xFFFF0000 }
    ([1, 2] : List Byte).length ≤ 255 ∧
    applyRecord st 0xFFFF 0 [1, 2] = .continue { st with mem := [(0, 2), (0xFFFFFFFF, 1)] } ∧
    (∀ i, i < 2 → (1 : Word) ≠ st.base + 0xFFFF + BitVec.ofNat 32 i) := ⟨by decide, rfl, by decide⟩
/-- A record of each shape: R; S; J; I with a register; I without (FENCE). -/
theorem witness_RetireRecordDescribesTheStep :
    (retireRecord (fetching 0x006283B3 (ab 1 2))).map (fun r => r.decoded.format) = some .R ∧
    (retireRecord (fetching 0x00532023 (ab 1 2))).map (fun r => r.decoded.format) = some .S ∧
    (retireRecord (fetching 0x008000EF (ab 1 2))).map (fun r => r.decoded.format) = some .J ∧
    (retireRecord (fetching 0x00408113 (ab 1 2))).map (fun r => (r.decoded.format, r.touched)) = some (.I, [(2, 4), (1, 0)]) ∧
    (retireRecord (fetching 0x0FF0000F (ab 1 2))).map (fun r => (r.decoded.format, r.touched)) = some (.I, []) :=
  ⟨rfl, rfl, rfl, by decide, by decide⟩
theorem witness_EveryStepKeepsTheInvariant :
    let s := { fetching 0x00532023 (ab 1 0x100) with fuel := some 1 }
    s.mem.wf ∧ (s.retired ≤ 1) ∧ s.run = .running ∧ step s = .next (after (.sw 6 5 0) s) ∧
    (advance (advance s)).run = .boundReached := ⟨by decide, by decide, rfl, rfl, rfl⟩
/-- The same state meets the invariant itself. -/
theorem witness_Inv : ({ fetching 0x00532023 (ab 1 0x100) with fuel := some 1 } : State).Inv := by
  refine ⟨by decide, ?_, ?_, ?_⟩
  · intro n h
    cases h
    decide
  · intro h
    cases h
  · intro h
    cases h

end Sys2Proof.Tests
end

section
/-! The register file (10_state.md R23, 00_scope.md R15). -/

namespace Sys2Proof.Machine

/-- Settles O1: the register file's read-after-write laws, once for x0 and once for any other register. -/
theorem registerZeroIsHardwired : Obligations.RegisterZeroIsHardwired := by
  unfold Obligations.RegisterZeroIsHardwired
  refine ⟨readReg_zero, writeReg_zero, fun s r v hr => ⟨?same, fun q hq => ?other⟩⟩
  case same => exact readReg_writeReg_self s v hr
  case other => exact readReg_writeReg_ne s v hq

end Sys2Proof.Machine
end

section
/-! What an instruction that commits a register write and a next pc alone has done (10_state.md R52): the shape LUI, AUIPC, the jumps,
the arithmetic and every load that fits share. -/

namespace Sys2Proof.Machine

open Sys2Proof.Spec

/-- The register write of a commit reaches `rd` alone (R23, R52). -/
theorem onlyReg_commit (s : State) (rd : RegIdx) (v npc : Word) :
    OnlyReg s (s.commit { regWrite := some (rd, v), npc := npc }) rd v := by
  refine ⟨rfl, fun hrd => ?_, fun r hr => ?_⟩
  · rw [commit_readReg, applyRegWrite_some, readReg_writeReg_self s v hrd]
  · rw [commit_readReg, applyRegWrite_some, readReg_writeReg_ne s v hr]

/-- A commit with no memory write leaves every byte (R52). -/
theorem sameMem_commit (s : State) {e : Effect} (he : e.memWrite = none) : SameMem s (s.commit e) := by
  intro a
  rw [State.readByte, commit_mem_none s e he, State.readByte]

/-- A commit that does not halt goes to the effect's next pc and counts one instruction (R52). -/
theorem retiresTo_commit (s : State) {e : Effect} (he : e.halt = false) : RetiresTo s (s.commit e) e.npc :=
  ⟨commit_pc s e, commit_retired s e, by simp [he], commit_fuel s e⟩

/-- An instruction that commits a register write and a next pc alone gives that value and goes there. -/
theorem gives_of_exec_eq {i : Instr} {s : State} {rd : RegIdx} {v npc : Word}
    (h : exec i s = .next (s.commit { regWrite := some (rd, v), npc := npc })) : Gives i s rd v npc :=
  ⟨_, h, onlyReg_commit s rd v npc, sameMem_commit s rfl, retiresTo_commit s rfl⟩

/-- An instruction that retires with a register write gives that value and goes to the default next pc. -/
theorem gives_of_exec_eq_retireReg {i : Instr} {s : State} {rd : RegIdx} {v : Word} (h : exec i s = s.retireReg rd v) :
    Gives i s rd v (s.pc + 4) :=
  gives_of_exec_eq h

end Sys2Proof.Machine
end

section
/-! Upper immediates (40_upper_immediate.md). -/

namespace Sys2Proof.Machine

open Sys2Proof.Spec

/-- R99: LUI retires with its immediate as the register write. -/
theorem exec_lui (rd : RegIdx) (imm : Word) (s : State) : exec (.lui rd imm) s = s.retireReg rd imm := rfl

/-- The entry of TOP for opcode 0110111 (30_encoding.md R89), with the U immediate of R84. -/
theorem decodesU_lui : DecodesU 0b0110111#7 .lui := fun w hop => by
  have htop : opcodeOf w = 0b0110111#7 := hop
  rw [decode, if_pos htop, rdOf, immUOf]

/-- Settles O2: the decoder's entry for the opcode, and LUI's one answer as a register write with the default next pc. -/
theorem luiWritesTheUpperImmediate : Obligations.LuiWritesTheUpperImmediate := by
  unfold Obligations.LuiWritesTheUpperImmediate
  exact ⟨decodesU_lui, fun rd imm s => gives_of_exec_eq_retireReg (exec_lui rd imm s)⟩

end Sys2Proof.Machine
end

section
/-! The comparisons of Flags.lean as relations between the integers that the two words stand for (10_state.md R25). -/

namespace Sys2Proof.Machine

theorem condEq_iff (a b : Word) : condEq a b = true ↔ a = b := beq_iff_eq

theorem condLt_iff (a b : Word) : condLt a b = true ↔ a.toInt < b.toInt := BitVec.slt_iff_toInt_lt

theorem condLtu_iff (a b : Word) : condLtu a b = true ↔ a.toNat < b.toNat := BitVec.ult_iff_lt

theorem not_condEq_iff (a b : Word) : (!condEq a b) = true ↔ a ≠ b := by
  rw [Bool.not_eq_true', ← Bool.not_eq_true, condEq_iff]

theorem not_condLt_iff (a b : Word) : (!condLt a b) = true ↔ a.toInt ≥ b.toInt := by
  rw [Bool.not_eq_true', ← Bool.not_eq_true, condLt_iff, not_lt, ge_iff_le]

theorem not_condLtu_iff (a b : Word) : (!condLtu a b) = true ↔ a.toNat ≥ b.toNat := by
  rw [Bool.not_eq_true', ← Bool.not_eq_true, condLtu_iff, not_lt, ge_iff_le]

end Sys2Proof.Machine
end

section
/-! What an instruction that commits a next pc alone has done (10_state.md R52): the shape the branches, FENCE and ECALL share. -/

namespace Sys2Proof.Machine

open Sys2Proof.Spec

/-- A commit with no register write leaves every register (R52). -/
theorem sameRegs_commit (s : State) {e : Effect} (he : e.regWrite = none) : SameRegs s (s.commit e) := by
  intro r
  rw [commit_readReg, he, applyRegWrite_none]

/-- An instruction that retires with a next pc and nothing else goes there. -/
theorem goesTo_of_exec_eq_retirePc {i : Instr} {s : State} {npc : Word} (h : exec i s = s.retirePc npc) : GoesTo i s npc :=
  ⟨_, h, sameRegs_commit s rfl, sameMem_commit s rfl, retiresTo_commit s rfl⟩

end Sys2Proof.Machine
end

section
/-! The conditional branches (41_control_transfer.md R103 to R108). -/

namespace Sys2Proof.Machine

open Sys2Proof.Spec

/-! ## The words: the entries of the funct3 table of opcode 1100011 (30_encoding.md R89) -/

/-- The entry of TOP for opcode 1100011 is the branches' funct3 table. -/
theorem decode_of_opcode_branch {w : Word} (hop : opcodeOf w = 0b1100011#7) : decode w = decodeBranch w := by
  simp [decode, hop]

/-- An entry of the branches' funct3 table is what a B-format word of that funct3 decodes to. -/
theorem decodesB_of_decodeBranch {f3 : BitVec 3} {mk : RegIdx → RegIdx → Word → Instr}
    (h : ∀ w, funct3Of w = f3 → decodeBranch w = .ok (mk (rs1Of w) (rs2Of w) (immBOf w))) : DecodesB f3 mk :=
  fun w hop hf3 => (decode_of_opcode_branch hop).trans (h w hf3)

theorem decodesB_beq : DecodesB 0b000#3 .beq := decodesB_of_decodeBranch fun w h => by simp [decodeBranch, h]
theorem decodesB_bne : DecodesB 0b001#3 .bne := decodesB_of_decodeBranch fun w h => by simp [decodeBranch, h]
theorem decodesB_blt : DecodesB 0b100#3 .blt := decodesB_of_decodeBranch fun w h => by simp [decodeBranch, h]
theorem decodesB_bge : DecodesB 0b101#3 .bge := decodesB_of_decodeBranch fun w h => by simp [decodeBranch, h]
theorem decodesB_bltu : DecodesB 0b110#3 .bltu := decodesB_of_decodeBranch fun w h => by simp [decodeBranch, h]
theorem decodesB_bgeu : DecodesB 0b111#3 .bgeu := decodesB_of_decodeBranch fun w h => by simp [decodeBranch, h]

/-! ## The effect -/

theorem branchPc_taken (s : State) {c : Bool} (imm : Word) (hc : c = true) : s.branchPc c imm = s.pc + imm := if_pos hc

theorem branchPc_not_taken (s : State) {c : Bool} (imm : Word) (hc : ¬ c = true) : s.branchPc c imm = s.pc + 4 := if_neg hc

/-- The one argument of the six branches: an instruction whose only effect is the branch pc of a comparison of `x[rs1]` and `x[rs2]`
that decides `taken`. -/
theorem branchRule_of_exec_eq {f3 : BitVec 3} {mk : RegIdx → RegIdx → Word → Instr} {taken : Word → Word → Prop}
    {cond : Word → Word → Bool} (hcond : ∀ a b, cond a b = true ↔ taken a b) (hdecode : DecodesB f3 mk)
    (hexec : ∀ rs1 rs2 imm s,
      exec (mk rs1 rs2 imm) s = s.retirePc (s.branchPc (cond (s.readReg rs1) (s.readReg rs2)) imm)) :
    BranchRule f3 mk taken := by
  refine ⟨hdecode, fun rs1 rs2 imm s => ⟨fun htaken => ?target, fun hnot => ?default⟩⟩
  case target =>
    have hpc := branchPc_taken s imm ((hcond _ _).mpr htaken)
    exact hpc ▸ goesTo_of_exec_eq_retirePc (hexec rs1 rs2 imm s)
  case default =>
    have hpc := branchPc_not_taken s imm (mt (hcond _ _).mp hnot)
    exact hpc ▸ goesTo_of_exec_eq_retirePc (hexec rs1 rs2 imm s)

section
variable (rs1 rs2 : RegIdx) (imm : Word) (s : State)

theorem exec_beq : exec (.beq rs1 rs2 imm) s = s.retirePc (s.branchPc (condEq (s.readReg rs1) (s.readReg rs2)) imm) := rfl
theorem exec_bne : exec (.bne rs1 rs2 imm) s = s.retirePc (s.branchPc (!condEq (s.readReg rs1) (s.readReg rs2)) imm) := rfl
theorem exec_blt : exec (.blt rs1 rs2 imm) s = s.retirePc (s.branchPc (condLt (s.readReg rs1) (s.readReg rs2)) imm) := rfl
theorem exec_bge : exec (.bge rs1 rs2 imm) s = s.retirePc (s.branchPc (!condLt (s.readReg rs1) (s.readReg rs2)) imm) := rfl
theorem exec_bltu : exec (.bltu rs1 rs2 imm) s = s.retirePc (s.branchPc (condLtu (s.readReg rs1) (s.readReg rs2)) imm) := rfl
theorem exec_bgeu : exec (.bgeu rs1 rs2 imm) s = s.retirePc (s.branchPc (!condLtu (s.readReg rs1) (s.readReg rs2)) imm) := rfl

end

/-- Settles O6: each branch's words, and its branch pc by the comparison that decides its condition. -/
theorem branchesCompareTwoRegisters : Obligations.BranchesCompareTwoRegisters := by
  unfold Obligations.BranchesCompareTwoRegisters
  refine ⟨?beq, ?bne, ?blt, ?bge, ?bltu, ?bgeu⟩
  case beq => exact branchRule_of_exec_eq condEq_iff decodesB_beq exec_beq
  case bne => exact branchRule_of_exec_eq not_condEq_iff decodesB_bne exec_bne
  case blt => exact branchRule_of_exec_eq condLt_iff decodesB_blt exec_blt
  case bge => exact branchRule_of_exec_eq not_condLt_iff decodesB_bge exec_bge
  case bltu => exact branchRule_of_exec_eq condLtu_iff decodesB_bltu exec_bltu
  case bgeu => exact branchRule_of_exec_eq not_condLtu_iff decodesB_bgeu exec_bgeu

end Sys2Proof.Machine
end

section
/-! The operations of the integer ALU on words as the arithmetic on integers that 43_integer_alu.md gives them by (00_scope.md R13, R16). -/

namespace Sys2Proof.Machine

/-- R122: addition modulo 2^32 is the signed sum, wrapped. -/
theorem add_eq_ofInt (a b : Word) : a + b = BitVec.ofInt 32 (a.toInt + b.toInt) := by
  rw [BitVec.ofInt_add, BitVec.ofInt_toInt, BitVec.ofInt_toInt]

/-- R131: addition modulo 2^32 is the unsigned sum, wrapped. -/
theorem add_eq_ofNat (a b : Word) : a + b = BitVec.ofNat 32 (a.toNat + b.toNat) := by
  rw [BitVec.ofNat_add, BitVec.ofNat_toNat, BitVec.ofNat_toNat, BitVec.setWidth_eq, BitVec.setWidth_eq]

/-- A word is its unsigned value, stored (R13). -/
theorem ofInt_toNat (a : Word) : BitVec.ofInt 32 (a.toNat : Int) = a := by
  rw [BitVec.ofInt_natCast, BitVec.ofNat_toNat, BitVec.setWidth_eq]

/-- R132: subtraction modulo 2^32 is the unsigned difference, wrapped. -/
theorem sub_eq_ofInt (a b : Word) : a - b = BitVec.ofInt 32 ((a.toNat : Int) - (b.toNat : Int)) := by
  rw [Int.sub_eq_add_neg, BitVec.ofInt_add, BitVec.ofInt_neg, ofInt_toNat, ofInt_toNat, BitVec.sub_eq_add_neg]

/-- R16: the left shift multiplies by a power of two, wrapped. -/
theorem shiftLeft_eq_ofNat (a : Word) (n : Nat) : a <<< n = BitVec.ofNat 32 (a.toNat * 2 ^ n) := by
  apply BitVec.eq_of_toNat_eq
  rw [BitVec.toNat_shiftLeft, Nat.shiftLeft_eq, BitVec.toNat_ofNat]

/-- R16: the logical right shift divides the unsigned value by a power of two. -/
theorem ushiftRight_eq_ofNat (a : Word) (n : Nat) : a >>> n = BitVec.ofNat 32 (a.toNat / 2 ^ n) := by
  rw [← Nat.shiftRight_eq_div_pow, ← BitVec.toNat_ushiftRight, BitVec.ofNat_toNat, BitVec.setWidth_eq]

/-- R16: the arithmetic right shift divides the signed value by a power of two and rounds down. -/
theorem sshiftRight_eq_ofInt (a : Word) (n : Nat) :
    a.sshiftRight n = BitVec.ofInt 32 (a.toInt / ((2 ^ n : Nat) : Int)) := by
  rw [BitVec.sshiftRight, Int.shiftRight_eq_div_pow]

/-- R133: `x[rs2] & 0x1F` is the value modulo 32. -/
theorem shiftAmount_eq_mod (b : Word) : shiftAmount b = b.toNat % 32 := by
  rw [shiftAmount, BitVec.toNat_setWidth]

/-- A comparison that decides `p` sets 1 or 0 as `p` holds or not (R123). -/
theorem setIf_eq_ite {c : Bool} {p : Prop} [Decidable p] (h : c = true ↔ p) : setIf c = if p then 1 else 0 := by
  rw [setIf]
  exact if_congr h rfl rfl

end Sys2Proof.Machine
end

section
/-! The words of the integer ALU: the tables of opcodes 0010011 and 0110011 (30_encoding.md R89). -/

namespace Sys2Proof.Machine

open Sys2Proof.Spec

/-! ## Opcode 0010011 -/

/-- The entry of TOP for opcode 0010011 is its funct3 table. -/
theorem decode_of_opcode_opImm {w : Word} (hop : opcodeOf w = 0b0010011#7) : decode w = decodeOpImm w := by
  simp [decode, hop]

/-- An entry of the table of opcode 0010011 that holds an immediate is what an I-format word of that funct3 decodes to. -/
theorem decodesI_of_decodeOpImm {f3 : BitVec 3} {mk : RegIdx → RegIdx → Word → Instr}
    (h : ∀ w, funct3Of w = f3 → decodeOpImm w = .ok (mk (rdOf w) (rs1Of w) (immIOf w))) : DecodesI 0b0010011#7 f3 mk :=
  fun w hop hf3 => (decode_of_opcode_opImm hop).trans (h w hf3)

/-- An entry of the table of opcode 0010011 that holds a shift amount is what a word of that funct3 and funct7 decodes to. -/
theorem decodesShift_of_decodeOpImm {f3 : BitVec 3} {f7 : BitVec 7} {mk : RegIdx → RegIdx → BitVec 5 → Instr}
    (h : ∀ w, funct3Of w = f3 → funct7Of w = f7 → decodeOpImm w = .ok (mk (rdOf w) (rs1Of w) (shamtOf w))) :
    DecodesShift f3 f7 mk :=
  fun w hop hf3 hf7 => (decode_of_opcode_opImm hop).trans (h w hf3 hf7)

theorem decodesI_addi : DecodesI 0b0010011#7 0b000#3 .addi := decodesI_of_decodeOpImm fun w h => by simp [decodeOpImm, h]
theorem decodesI_slti : DecodesI 0b0010011#7 0b010#3 .slti := decodesI_of_decodeOpImm fun w h => by simp [decodeOpImm, h]
theorem decodesI_sltiu : DecodesI 0b0010011#7 0b011#3 .sltiu := decodesI_of_decodeOpImm fun w h => by simp [decodeOpImm, h]
theorem decodesI_xori : DecodesI 0b0010011#7 0b100#3 .xori := decodesI_of_decodeOpImm fun w h => by simp [decodeOpImm, h]
theorem decodesI_ori : DecodesI 0b0010011#7 0b110#3 .ori := decodesI_of_decodeOpImm fun w h => by simp [decodeOpImm, h]
theorem decodesI_andi : DecodesI 0b0010011#7 0b111#3 .andi := decodesI_of_decodeOpImm fun w h => by simp [decodeOpImm, h]

theorem decodesShift_srli : DecodesShift 0b101#3 0b0000000#7 .srli :=
  decodesShift_of_decodeOpImm fun w h3 h7 => by simp [decodeOpImm, h3, h7]
theorem decodesShift_srai : DecodesShift 0b101#3 0b0100000#7 .srai :=
  decodesShift_of_decodeOpImm fun w h3 h7 => by simp [decodeOpImm, h3, h7]

/-! ## Opcode 0110011 -/

/-- The entry of TOP for opcode 0110011 is its funct3 and funct7 tables. -/
theorem decode_of_opcode_op {w : Word} (hop : opcodeOf w = 0b0110011#7) : decode w = decodeOp w := by
  simp [decode, hop]

/-- The column funct7 = 0000000. -/
theorem decodeOp_of_funct7_base {w : Word} (h : funct7Of w = 0b0000000#7) : decodeOp w = decodeOpBase w := if_pos h

/-- The column funct7 = 0100000. -/
theorem decodeOp_of_funct7_alt {w : Word} (h : funct7Of w = 0b0100000#7) : decodeOp w = decodeOpAlt w := by
  simp [decodeOp, h]

/-- An entry of a funct7 column of opcode 0110011 is what an R-format word of that funct3 and funct7 decodes to. -/
theorem decodesR_of_column {f3 : BitVec 3} {f7 : BitVec 7} {mk : RegIdx → RegIdx → RegIdx → Instr}
    {column : Word → Except DecodeReject Instr} (hcolumn : ∀ {w}, funct7Of w = f7 → decodeOp w = column w)
    (h : ∀ w, funct3Of w = f3 → column w = .ok (mk (rdOf w) (rs1Of w) (rs2Of w))) : DecodesR f3 f7 mk :=
  fun w hop hf3 hf7 => calc
    decode w = decodeOp w := decode_of_opcode_op hop
    _ = column w := hcolumn hf7
    _ = .ok (mk (rdOf w) (rs1Of w) (rs2Of w)) := h w hf3

theorem decodesR_add : DecodesR 0b000#3 0b0000000#7 .add :=
  decodesR_of_column decodeOp_of_funct7_base fun w h => by simp [decodeOpBase, h]
theorem decodesR_sll : DecodesR 0b001#3 0b0000000#7 .sll :=
  decodesR_of_column decodeOp_of_funct7_base fun w h => by simp [decodeOpBase, h]
theorem decodesR_slt : DecodesR 0b010#3 0b0000000#7 .slt :=
  decodesR_of_column decodeOp_of_funct7_base fun w h => by simp [decodeOpBase, h]
theorem decodesR_sltu : DecodesR 0b011#3 0b0000000#7 .sltu :=
  decodesR_of_column decodeOp_of_funct7_base fun w h => by simp [decodeOpBase, h]
theorem decodesR_xor : DecodesR 0b100#3 0b0000000#7 .xor :=
  decodesR_of_column decodeOp_of_funct7_base fun w h => by simp [decodeOpBase, h]
theorem decodesR_srl : DecodesR 0b101#3 0b0000000#7 .srl :=
  decodesR_of_column decodeOp_of_funct7_base fun w h => by simp [decodeOpBase, h]
theorem decodesR_or : DecodesR 0b110#3 0b0000000#7 .or :=
  decodesR_of_column decodeOp_of_funct7_base fun w h => by simp [decodeOpBase, h]
theorem decodesR_and : DecodesR 0b111#3 0b0000000#7 .and :=
  decodesR_of_column decodeOp_of_funct7_base fun w h => by simp [decodeOpBase, h]
theorem decodesR_sub : DecodesR 0b000#3 0b0100000#7 .sub :=
  decodesR_of_column decodeOp_of_funct7_alt fun w h => by simp [decodeOpAlt, h]
theorem decodesR_sra : DecodesR 0b101#3 0b0100000#7 .sra :=
  decodesR_of_column decodeOp_of_funct7_alt fun w h => by simp [decodeOpAlt, h]

end Sys2Proof.Machine
end

section
/-! The instructions of the integer ALU (43_integer_alu.md R122 to R140): every one retires with one register write. -/

namespace Sys2Proof.Machine

open Sys2Proof.Spec

/-! ## The one argument of each operand form: an instruction that retires with `g` of its operands, where `g` is the rule's `f` -/

theorem immRule_of_exec_eq {f3 : BitVec 3} {mk : RegIdx → RegIdx → Word → Instr} {f g : Word → Word → Word}
    (hvalue : ∀ a imm, g a imm = f a imm) (hdecode : DecodesI 0b0010011#7 f3 mk)
    (hexec : ∀ rd rs1 imm s, exec (mk rd rs1 imm) s = s.retireReg rd (g (s.readReg rs1) imm)) : ImmRule f3 mk f :=
  ⟨hdecode, fun rd rs1 imm s => hvalue _ _ ▸ gives_of_exec_eq_retireReg (hexec rd rs1 imm s)⟩

theorem shiftRule_of_exec_eq {f3 : BitVec 3} {f7 : BitVec 7} {mk : RegIdx → RegIdx → BitVec 5 → Instr}
    {f g : Word → Nat → Word} (hvalue : ∀ a n, g a n = f a n) (hdecode : DecodesShift f3 f7 mk)
    (hexec : ∀ rd rs1 shamt s, exec (mk rd rs1 shamt) s = s.retireReg rd (g (s.readReg rs1) shamt.toNat)) :
    ShiftRule f3 f7 mk f :=
  ⟨hdecode, fun rd rs1 shamt s => hvalue _ _ ▸ gives_of_exec_eq_retireReg (hexec rd rs1 shamt s)⟩

theorem regRule_of_exec_eq {f3 : BitVec 3} {f7 : BitVec 7} {mk : RegIdx → RegIdx → RegIdx → Instr} {f g : Word → Word → Word}
    (hvalue : ∀ a b, g a b = f a b) (hdecode : DecodesR f3 f7 mk)
    (hexec : ∀ rd rs1 rs2 s, exec (mk rd rs1 rs2) s = s.retireReg rd (g (s.readReg rs1) (s.readReg rs2))) :
    RegRule f3 f7 mk f :=
  ⟨hdecode, fun rd rs1 rs2 s => hvalue _ _ ▸ gives_of_exec_eq_retireReg (hexec rd rs1 rs2 s)⟩

/-! ## The effects -/

section
variable (rd rs1 : RegIdx) (imm : Word) (s : State)

theorem exec_addi : exec (.addi rd rs1 imm) s = s.retireReg rd (s.readReg rs1 + imm) := rfl
theorem exec_slti : exec (.slti rd rs1 imm) s = s.retireReg rd (setIf (condLt (s.readReg rs1) imm)) := rfl
theorem exec_sltiu : exec (.sltiu rd rs1 imm) s = s.retireReg rd (setIf (condLtu (s.readReg rs1) imm)) := rfl
theorem exec_xori : exec (.xori rd rs1 imm) s = s.retireReg rd (s.readReg rs1 ^^^ imm) := rfl
theorem exec_ori : exec (.ori rd rs1 imm) s = s.retireReg rd (s.readReg rs1 ||| imm) := rfl
theorem exec_andi : exec (.andi rd rs1 imm) s = s.retireReg rd (s.readReg rs1 &&& imm) := rfl

end

section
variable (rd rs1 : RegIdx) (shamt : BitVec 5) (s : State)

theorem exec_srli : exec (.srli rd rs1 shamt) s = s.retireReg rd (s.readReg rs1 >>> shamt.toNat) := rfl
theorem exec_srai : exec (.srai rd rs1 shamt) s = s.retireReg rd ((s.readReg rs1).sshiftRight shamt.toNat) := rfl

end

section
variable (rd rs1 rs2 : RegIdx) (s : State)

theorem exec_add : exec (.add rd rs1 rs2) s = s.retireReg rd (s.readReg rs1 + s.readReg rs2) := rfl
theorem exec_sub : exec (.sub rd rs1 rs2) s = s.retireReg rd (s.readReg rs1 - s.readReg rs2) := rfl
theorem exec_slt : exec (.slt rd rs1 rs2) s = s.retireReg rd (setIf (condLt (s.readReg rs1) (s.readReg rs2))) := rfl
theorem exec_sltu : exec (.sltu rd rs1 rs2) s = s.retireReg rd (setIf (condLtu (s.readReg rs1) (s.readReg rs2))) := rfl
theorem exec_xor : exec (.xor rd rs1 rs2) s = s.retireReg rd (s.readReg rs1 ^^^ s.readReg rs2) := rfl
theorem exec_or : exec (.or rd rs1 rs2) s = s.retireReg rd (s.readReg rs1 ||| s.readReg rs2) := rfl
theorem exec_and : exec (.and rd rs1 rs2) s = s.retireReg rd (s.readReg rs1 &&& s.readReg rs2) := rfl

/-! The register shifts, with the amount as a remainder (R133, R137, R138). -/

theorem exec_sll : exec (.sll rd rs1 rs2) s = s.retireReg rd (s.readReg rs1 <<< ((s.readReg rs2).toNat % 32)) := by
  rw [← shiftAmount_eq_mod]; rfl
theorem exec_srl : exec (.srl rd rs1 rs2) s = s.retireReg rd (s.readReg rs1 >>> ((s.readReg rs2).toNat % 32)) := by
  rw [← shiftAmount_eq_mod]; rfl
theorem exec_sra : exec (.sra rd rs1 rs2) s = s.retireReg rd ((s.readReg rs1).sshiftRight ((s.readReg rs2).toNat % 32)) := by
  rw [← shiftAmount_eq_mod]; rfl

end

/-! ## The rules -/

/-- Settles O13: each instruction's words and its one answer; the sum wraps, and a comparison decides its 1 or 0. -/
theorem immediateArithmetic : Obligations.ImmediateArithmetic := by
  unfold Obligations.ImmediateArithmetic
  refine ⟨?addi, ?slti, ?sltiu, ?xori, ?ori, ?andi⟩
  case addi => exact immRule_of_exec_eq add_eq_ofInt decodesI_addi exec_addi
  case slti => exact immRule_of_exec_eq (fun a imm => setIf_eq_ite (condLt_iff a imm)) decodesI_slti exec_slti
  case sltiu => exact immRule_of_exec_eq (fun a imm => setIf_eq_ite (condLtu_iff a imm)) decodesI_sltiu exec_sltiu
  case xori => exact immRule_of_exec_eq (fun _ _ => rfl) decodesI_xori exec_xori
  case ori => exact immRule_of_exec_eq (fun _ _ => rfl) decodesI_ori exec_ori
  case andi => exact immRule_of_exec_eq (fun _ _ => rfl) decodesI_andi exec_andi

/-- Settles O14: the two shifts' words, and each shift as a division by a power of two. -/
theorem rightShiftImmediates : Obligations.RightShiftImmediates := by
  unfold Obligations.RightShiftImmediates
  refine ⟨?srli, ?srai⟩
  case srli => exact shiftRule_of_exec_eq ushiftRight_eq_ofNat decodesShift_srli exec_srli
  case srai => exact shiftRule_of_exec_eq sshiftRight_eq_ofInt decodesShift_srai exec_srai

/-- Settles O16: each instruction's words and its one answer; sum and difference wrap, and a comparison decides its 1 or 0. -/
theorem registerAddSubtractCompare : Obligations.RegisterAddSubtractCompare := by
  unfold Obligations.RegisterAddSubtractCompare
  refine ⟨?add, ?sub, ?slt, ?sltu⟩
  case add => exact regRule_of_exec_eq add_eq_ofNat decodesR_add exec_add
  case sub => exact regRule_of_exec_eq sub_eq_ofInt decodesR_sub exec_sub
  case slt => exact regRule_of_exec_eq (fun a b => setIf_eq_ite (condLt_iff a b)) decodesR_slt exec_slt
  case sltu => exact regRule_of_exec_eq (fun a b => setIf_eq_ite (condLtu_iff a b)) decodesR_sltu exec_sltu

/-- Settles O17: each shift's words, and the shift by the masked amount as a product with or a division by a power of two. -/
theorem registerShiftsMaskTheAmount : Obligations.RegisterShiftsMaskTheAmount := by
  unfold Obligations.RegisterShiftsMaskTheAmount
  refine ⟨?sll, ?srl, ?sra⟩
  case sll => exact regRule_of_exec_eq (fun a b => shiftLeft_eq_ofNat a (b.toNat % 32)) decodesR_sll exec_sll
  case srl => exact regRule_of_exec_eq (fun a b => ushiftRight_eq_ofNat a (b.toNat % 32)) decodesR_srl exec_srl
  case sra => exact regRule_of_exec_eq (fun a b => sshiftRight_eq_ofInt a (b.toNat % 32)) decodesR_sra exec_sra

/-- Settles O18: each instruction's words, and its bitwise result as the register write. -/
theorem registerLogic : Obligations.RegisterLogic := by
  unfold Obligations.RegisterLogic
  refine ⟨?xor, ?or, ?and⟩
  case xor => exact regRule_of_exec_eq (fun _ _ => rfl) decodesR_xor exec_xor
  case or => exact regRule_of_exec_eq (fun _ _ => rfl) decodesR_or exec_or
  case and => exact regRule_of_exec_eq (fun _ _ => rfl) decodesR_and exec_and

end Sys2Proof.Machine
end

section
/-! The multiply instructions (44_multiply_divide.md R141 to R144): every one retires with one half of an exact product. -/

namespace Sys2Proof.Machine

open Sys2Proof.Spec

/-! ## The words: the column funct7 = 0000001 of opcode 0110011 (30_encoding.md R89) -/

/-- The column funct7 = 0000001, the M extension. -/
theorem decodeOp_of_funct7_mul {w : Word} (h : funct7Of w = 0b0000001#7) : decodeOp w = decodeOpMul w := by
  simp [decodeOp, h]

theorem decodesR_mul : DecodesR 0b000#3 0b0000001#7 .mul :=
  decodesR_of_column decodeOp_of_funct7_mul fun w h => by simp [decodeOpMul, h]
theorem decodesR_mulh : DecodesR 0b001#3 0b0000001#7 .mulh :=
  decodesR_of_column decodeOp_of_funct7_mul fun w h => by simp [decodeOpMul, h]
theorem decodesR_mulhsu : DecodesR 0b010#3 0b0000001#7 .mulhsu :=
  decodesR_of_column decodeOp_of_funct7_mul fun w h => by simp [decodeOpMul, h]
theorem decodesR_mulhu : DecodesR 0b011#3 0b0000001#7 .mulhu :=
  decodesR_of_column decodeOp_of_funct7_mul fun w h => by simp [decodeOpMul, h]

/-! ## The values -/

/-- R144: the high half of a product that is not negative is the natural quotient. -/
theorem highHalf_natCast (p : Nat) : highHalf (p : Int) = BitVec.ofNat 32 (p / 4294967296) :=
  BitVec.ofInt_natCast 32 (p / 4294967296)

/-- R144: the unsigned product is taken in the integers by the model and in the natural numbers by the rule. -/
theorem mulHighU_eq_ofNat (a b : Word) : mulHighU a b = BitVec.ofNat 32 (a.toNat * b.toNat / 4294967296) := by
  rw [mulHighU, ← Int.natCast_mul, highHalf_natCast]

/-! ## The effects -/

section
variable (rd rs1 rs2 : RegIdx) (s : State)

theorem exec_mul : exec (.mul rd rs1 rs2) s = s.retireReg rd (mulLow (s.readReg rs1) (s.readReg rs2)) := rfl
theorem exec_mulh : exec (.mulh rd rs1 rs2) s = s.retireReg rd (mulHigh (s.readReg rs1) (s.readReg rs2)) := rfl
theorem exec_mulhsu : exec (.mulhsu rd rs1 rs2) s = s.retireReg rd (mulHighSU (s.readReg rs1) (s.readReg rs2)) := rfl
theorem exec_mulhu : exec (.mulhu rd rs1 rs2) s = s.retireReg rd (mulHighU (s.readReg rs1) (s.readReg rs2)) := rfl

end

/-- Settles O19: each instruction's words, and its half of the exact product as the register write; MULHU's product is a natural
number's. -/
theorem multiplyHalves : Obligations.MultiplyHalves := by
  unfold Obligations.MultiplyHalves
  refine ⟨?mul, ?mulh, ?mulhsu, ?mulhu⟩
  case mul => exact regRule_of_exec_eq (fun _ _ => rfl) decodesR_mul exec_mul
  case mulh => exact regRule_of_exec_eq (fun _ _ => rfl) decodesR_mulh exec_mulh
  case mulhsu => exact regRule_of_exec_eq (fun _ _ => rfl) decodesR_mulhsu exec_mulhsu
  case mulhu => exact regRule_of_exec_eq mulHighU_eq_ofNat decodesR_mulhu exec_mulhu

end Sys2Proof.Machine
end

section
/-! The words of the remaining entries of the tables of 30_encoding.md R89: what each opcode, funct3 and funct7 decodes to. -/

namespace Sys2Proof.Machine

open Sys2Proof.Spec

/-! ## The entries of TOP -/

section
variable {w : Word}

/-- The eleven opcodes of TOP, one by one. -/
theorem mem_topOpcodes_iff (op : BitVec 7) :
    op ∈ topOpcodes ↔ op = 0b0110111#7 ∨ op = 0b0010111#7 ∨ op = 0b1101111#7 ∨ op = 0b1100111#7 ∨ op = 0b1100011#7 ∨
      op = 0b0000011#7 ∨ op = 0b0100011#7 ∨ op = 0b0010011#7 ∨ op = 0b0110011#7 ∨ op = 0b0001111#7 ∨ op = 0b1110011#7 := by
  simp [topOpcodes]

/-- R91 (a): an opcode that is not in TOP. -/
theorem decode_of_opcode_not_top (hop : opcodeOf w ∉ topOpcodes) : decode w = .error .opcode := by
  simp only [mem_topOpcodes_iff, not_or] at hop
  simp [decode, hop]

theorem decode_of_opcode_lui (hop : opcodeOf w = 0b0110111#7) : decode w = .ok (.lui (rdOf w) (immUOf w)) := by
  simp [decode, hop]

theorem decode_of_opcode_auipc (hop : opcodeOf w = 0b0010111#7) : decode w = .ok (.auipc (rdOf w) (immUOf w)) := by
  simp [decode, hop]

theorem decode_of_opcode_jal (hop : opcodeOf w = 0b1101111#7) : decode w = .ok (.jal (rdOf w) (immJOf w)) := by
  simp [decode, hop]

theorem decode_of_opcode_jalr (hop : opcodeOf w = 0b1100111#7) :
    decode w = if funct3Of w = 0b000#3 then .ok (.jalr (rdOf w) (rs1Of w) (immIOf w)) else .error .funct3 := by
  simp [decode, hop]

theorem decode_of_opcode_load (hop : opcodeOf w = 0b0000011#7) : decode w = decodeLoad w := by
  simp [decode, hop]

theorem decode_of_opcode_store (hop : opcodeOf w = 0b0100011#7) : decode w = decodeStore w := by
  simp [decode, hop]

theorem decode_of_opcode_fence (hop : opcodeOf w = 0b0001111#7) :
    decode w = if funct3Of w = 0b000#3 then .ok (.fence (rdOf w) (rs1Of w) (immIOf w)) else .error .funct3 := by
  simp [decode, hop]

theorem decode_of_opcode_system (hop : opcodeOf w = 0b1110011#7) : decode w = decodeSystem w := by
  simp [decode, hop]

end

theorem decodesU_auipc : DecodesU 0b0010111#7 .auipc := fun _ hop => decode_of_opcode_auipc hop

/-! ## I format -/

theorem decodesI_jalr : DecodesI 0b1100111#7 0b000#3 .jalr :=
  fun _ hop hf3 => (decode_of_opcode_jalr hop).trans (if_pos hf3)

theorem decodesI_fence : DecodesI 0b0001111#7 0b000#3 .fence :=
  fun _ hop hf3 => (decode_of_opcode_fence hop).trans (if_pos hf3)

/-- An entry of the loads' funct3 table is what an I-format word of that funct3 decodes to. -/
theorem decodesI_of_decodeLoad {f3 : BitVec 3} {mk : RegIdx → RegIdx → Word → Instr}
    (h : ∀ w, funct3Of w = f3 → decodeLoad w = .ok (mk (rdOf w) (rs1Of w) (immIOf w))) : DecodesI 0b0000011#7 f3 mk :=
  fun w hop hf3 => (decode_of_opcode_load hop).trans (h w hf3)

theorem decodesI_lb : DecodesI 0b0000011#7 0b000#3 .lb := decodesI_of_decodeLoad fun w h => by simp [decodeLoad, h]
theorem decodesI_lh : DecodesI 0b0000011#7 0b001#3 .lh := decodesI_of_decodeLoad fun w h => by simp [decodeLoad, h]
theorem decodesI_lw : DecodesI 0b0000011#7 0b010#3 .lw := decodesI_of_decodeLoad fun w h => by simp [decodeLoad, h]
theorem decodesI_lbu : DecodesI 0b0000011#7 0b100#3 .lbu := decodesI_of_decodeLoad fun w h => by simp [decodeLoad, h]
theorem decodesI_lhu : DecodesI 0b0000011#7 0b101#3 .lhu := decodesI_of_decodeLoad fun w h => by simp [decodeLoad, h]

theorem decodesShift_slli : DecodesShift 0b001#3 0b0000000#7 .slli :=
  decodesShift_of_decodeOpImm fun w h3 h7 => by simp [decodeOpImm, h3, h7]

/-! ## S format -/

/-- An entry of the stores' funct3 table is what an S-format word of that funct3 decodes to. -/
theorem decodesS_of_decodeStore {f3 : BitVec 3} {mk : RegIdx → RegIdx → Word → Instr}
    (h : ∀ w, funct3Of w = f3 → decodeStore w = .ok (mk (rs1Of w) (rs2Of w) (immSOf w))) : DecodesS f3 mk :=
  fun w hop hf3 => (decode_of_opcode_store hop).trans (h w hf3)

theorem decodesS_sb : DecodesS 0b000#3 .sb := decodesS_of_decodeStore fun w h => by simp [decodeStore, h]
theorem decodesS_sh : DecodesS 0b001#3 .sh := decodesS_of_decodeStore fun w h => by simp [decodeStore, h]
theorem decodesS_sw : DecodesS 0b010#3 .sw := decodesS_of_decodeStore fun w h => by simp [decodeStore, h]

/-! ## R format: division -/

theorem decodesR_div : DecodesR 0b100#3 0b0000001#7 .div :=
  decodesR_of_column decodeOp_of_funct7_mul fun w h => by simp [decodeOpMul, h]
theorem decodesR_divu : DecodesR 0b101#3 0b0000001#7 .divu :=
  decodesR_of_column decodeOp_of_funct7_mul fun w h => by simp [decodeOpMul, h]
theorem decodesR_rem : DecodesR 0b110#3 0b0000001#7 .rem :=
  decodesR_of_column decodeOp_of_funct7_mul fun w h => by simp [decodeOpMul, h]
theorem decodesR_remu : DecodesR 0b111#3 0b0000001#7 .remu :=
  decodesR_of_column decodeOp_of_funct7_mul fun w h => by simp [decodeOpMul, h]

/-! ## SYSTEM (30_encoding.md R90) -/

section
variable {w : Word} (hop : opcodeOf w = 0b1110011#7) (hf3 : funct3Of w = 0b000#3)
include hop hf3

theorem decode_of_ecall_fields (himm : funct12Of w = 0x000#12) : decode w = .ok (.ecall (rdOf w) (rs1Of w)) :=
  (decode_of_opcode_system hop).trans (by simp [decodeSystem, hf3, himm])

theorem decode_of_ebreak_fields (himm : funct12Of w = 0x001#12) : decode w = .ok (.ebreak (rdOf w) (rs1Of w)) :=
  (decode_of_opcode_system hop).trans (by simp [decodeSystem, hf3, himm])

end

end Sys2Proof.Machine
end

section
/-! Decode of encode (30_encoding.md section 6): the fields of an encoded word select its own table entry, which reads the operands back. -/

namespace Sys2Proof.Machine

open Sys2Proof.Spec

/-! ## Each format's layout, read by any entry of that format -/

section
variable {op : BitVec 7} {f3 : BitVec 3} {f7 : BitVec 7} {imm : Word} {rd rs1 rs2 : RegIdx}

theorem decode_encodeU {mk : RegIdx → Word → Instr} (h : DecodesU op mk) (himm : immFitsU imm = true) :
    decode (encodeU imm op rd) = .ok (mk rd imm) := calc
  decode (encodeU imm op rd) = .ok (mk (rdOf (encodeU imm op rd)) (immUOf (encodeU imm op rd))) :=
    h _ (opcodeOf_encodeU imm op rd)
  _ = .ok (mk rd imm) := by rw [rdOf_encodeU, immUOf_encodeU op rd himm]

theorem decode_encodeI {mk : RegIdx → RegIdx → Word → Instr} (h : DecodesI op f3 mk) (himm : immFits12 imm = true) :
    decode (encodeI (imm12Of imm) f3 op rd rs1) = .ok (mk rd rs1 imm) := calc
  decode (encodeI (imm12Of imm) f3 op rd rs1) = .ok (mk (rdOf (encodeI (imm12Of imm) f3 op rd rs1))
      (rs1Of (encodeI (imm12Of imm) f3 op rd rs1)) (immIOf (encodeI (imm12Of imm) f3 op rd rs1))) :=
    h _ (opcodeOf_encodeI ..) (funct3Of_encodeI ..)
  _ = .ok (mk rd rs1 imm) := by rw [rdOf_encodeI, rs1Of_encodeI, immIOf_encodeI, imm12Of, signExtend_low12 himm]

theorem decode_encodeS {mk : RegIdx → RegIdx → Word → Instr} (h : DecodesS f3 mk) (himm : immFits12 imm = true) :
    decode (encodeS imm f3 0b0100011#7 rs1 rs2) = .ok (mk rs1 rs2 imm) := calc
  decode (encodeS imm f3 0b0100011#7 rs1 rs2) = .ok (mk (rs1Of (encodeS imm f3 0b0100011#7 rs1 rs2))
      (rs2Of (encodeS imm f3 0b0100011#7 rs1 rs2)) (immSOf (encodeS imm f3 0b0100011#7 rs1 rs2))) :=
    h _ (opcodeOf_encodeS ..) (funct3Of_encodeS ..)
  _ = .ok (mk rs1 rs2 imm) := by rw [rs1Of_encodeS, rs2Of_encodeS, immSOf_encodeS f3 _ rs1 rs2 himm]

theorem decode_encodeB {mk : RegIdx → RegIdx → Word → Instr} (h : DecodesB f3 mk) (himm : immFitsB imm = true) :
    decode (encodeB imm f3 0b1100011#7 rs1 rs2) = .ok (mk rs1 rs2 imm) := calc
  decode (encodeB imm f3 0b1100011#7 rs1 rs2) = .ok (mk (rs1Of (encodeB imm f3 0b1100011#7 rs1 rs2))
      (rs2Of (encodeB imm f3 0b1100011#7 rs1 rs2)) (immBOf (encodeB imm f3 0b1100011#7 rs1 rs2))) :=
    h _ (opcodeOf_encodeB ..) (funct3Of_encodeB ..)
  _ = .ok (mk rs1 rs2 imm) := by rw [rs1Of_encodeB, rs2Of_encodeB, immBOf_encodeB f3 _ rs1 rs2 himm]

theorem decode_encodeJ (himm : immFitsJ imm = true) : decode (encodeJ imm 0b1101111#7 rd) = .ok (.jal rd imm) := by
  rw [decode_of_opcode_jal (opcodeOf_encodeJ ..), rdOf_encodeJ, immJOf_encodeJ _ rd himm]

theorem decode_encodeR {mk : RegIdx → RegIdx → RegIdx → Instr} (h : DecodesR f3 f7 mk) :
    decode (encodeR f7 f3 0b0110011#7 rd rs1 rs2) = .ok (mk rd rs1 rs2) := calc
  decode (encodeR f7 f3 0b0110011#7 rd rs1 rs2) = .ok (mk (rdOf (encodeR f7 f3 0b0110011#7 rd rs1 rs2))
      (rs1Of (encodeR f7 f3 0b0110011#7 rd rs1 rs2)) (rs2Of (encodeR f7 f3 0b0110011#7 rd rs1 rs2))) :=
    h _ (opcodeOf_encodeR ..) (funct3Of_encodeR ..) (funct7Of_encodeR ..)
  _ = .ok (mk rd rs1 rs2) := by rw [rdOf_encodeR, rs1Of_encodeR, rs2Of_encodeR]

theorem decode_encodeShift {mk : RegIdx → RegIdx → BitVec 5 → Instr} (h : DecodesShift f3 f7 mk) :
    decode (encodeR f7 f3 0b0010011#7 rd rs1 rs2) = .ok (mk rd rs1 rs2) := calc
  decode (encodeR f7 f3 0b0010011#7 rd rs1 rs2) = .ok (mk (rdOf (encodeR f7 f3 0b0010011#7 rd rs1 rs2))
      (rs1Of (encodeR f7 f3 0b0010011#7 rd rs1 rs2)) (shamtOf (encodeR f7 f3 0b0010011#7 rd rs1 rs2))) :=
    h _ (opcodeOf_encodeR ..) (funct3Of_encodeR ..) (funct7Of_encodeR ..)
  _ = .ok (mk rd rs1 rs2) := by rw [rdOf_encodeR, rs1Of_encodeR, shamtOf_encodeR]

end

/-- The round trip of one instruction: each constructor's table entry, read through its format's layout. -/
theorem decode_encode {i : Instr} (hwf : i.WellFormed) : decode (encode i) = .ok i := by
  cases i
  case lui => exact decode_encodeU decodesU_lui hwf
  case auipc => exact decode_encodeU decodesU_auipc hwf
  case jal => exact decode_encodeJ hwf
  case jalr => exact decode_encodeI decodesI_jalr hwf
  case beq => exact decode_encodeB decodesB_beq hwf
  case bne => exact decode_encodeB decodesB_bne hwf
  case blt => exact decode_encodeB decodesB_blt hwf
  case bge => exact decode_encodeB decodesB_bge hwf
  case bltu => exact decode_encodeB decodesB_bltu hwf
  case bgeu => exact decode_encodeB decodesB_bgeu hwf
  case lb => exact decode_encodeI decodesI_lb hwf
  case lh => exact decode_encodeI decodesI_lh hwf
  case lw => exact decode_encodeI decodesI_lw hwf
  case lbu => exact decode_encodeI decodesI_lbu hwf
  case lhu => exact decode_encodeI decodesI_lhu hwf
  case sb => exact decode_encodeS decodesS_sb hwf
  case sh => exact decode_encodeS decodesS_sh hwf
  case sw => exact decode_encodeS decodesS_sw hwf
  case addi => exact decode_encodeI decodesI_addi hwf
  case slti => exact decode_encodeI decodesI_slti hwf
  case sltiu => exact decode_encodeI decodesI_sltiu hwf
  case xori => exact decode_encodeI decodesI_xori hwf
  case ori => exact decode_encodeI decodesI_ori hwf
  case andi => exact decode_encodeI decodesI_andi hwf
  case slli => exact decode_encodeShift decodesShift_slli
  case srli => exact decode_encodeShift decodesShift_srli
  case srai => exact decode_encodeShift decodesShift_srai
  case add => exact decode_encodeR decodesR_add
  case sub => exact decode_encodeR decodesR_sub
  case sll => exact decode_encodeR decodesR_sll
  case slt => exact decode_encodeR decodesR_slt
  case sltu => exact decode_encodeR decodesR_sltu
  case xor => exact decode_encodeR decodesR_xor
  case srl => exact decode_encodeR decodesR_srl
  case sra => exact decode_encodeR decodesR_sra
  case or => exact decode_encodeR decodesR_or
  case and => exact decode_encodeR decodesR_and
  case mul => exact decode_encodeR decodesR_mul
  case mulh => exact decode_encodeR decodesR_mulh
  case mulhsu => exact decode_encodeR decodesR_mulhsu
  case mulhu => exact decode_encodeR decodesR_mulhu
  case div => exact decode_encodeR decodesR_div
  case divu => exact decode_encodeR decodesR_divu
  case rem => exact decode_encodeR decodesR_rem
  case remu => exact decode_encodeR decodesR_remu
  case fence => exact decode_encodeI decodesI_fence hwf
  case ecall rd rs1 => simp [encode, decode_of_ecall_fields]
  case ebreak rd rs1 => simp [encode, decode_of_ebreak_fields]

/-- Settles O42: the fields of an encoded word select the instruction's own table entry, and its operands are read back. -/
theorem decodeInvertsEncode : Obligations.DecodeInvertsEncode := by
  unfold Obligations.DecodeInvertsEncode
  exact fun _ hwf => decode_encode hwf

end Sys2Proof.Machine
end


section
/-! Encode of decode (30_encoding.md section 6): the fields of a word, laid out again in their format, are the word. -/

namespace Sys2Proof.Machine

open Sys2Proof.Spec

/-! ## The ranges of the immediates that the formats read (30_encoding.md R81 to R85) -/

theorem immFits12_signExtend (x : BitVec 12) : immFits12 (x.signExtend 32) = true := by
  have hlo := x.le_toInt
  have hhi := x.toInt_lt
  rw [immFits12, BitVec.toInt_signExtend_of_le (by decide)]
  simp only [Bool.and_eq_true, decide_eq_true_eq]
  omega

/-- A 13-bit immediate whose bit 0 is a literal 0 is a B immediate. -/
theorem immFitsB_signExtend (x : BitVec 12) : immFitsB ((x ++ 0#1 : BitVec 13).signExtend 32) = true := by
  have hlo := x.le_toInt
  have hhi := x.toInt_lt
  rw [immFitsB, BitVec.toInt_signExtend_of_le (by decide), BitVec.toInt_append_zero]
  simp only [Bool.and_eq_true, decide_eq_true_eq]
  omega

/-- A 21-bit immediate whose bit 0 is a literal 0 is a J immediate. -/
theorem immFitsJ_signExtend (x : BitVec 20) : immFitsJ ((x ++ 0#1 : BitVec 21).signExtend 32) = true := by
  have hlo := x.le_toInt
  have hhi := x.toInt_lt
  rw [immFitsJ, BitVec.toInt_signExtend_of_le (by decide), BitVec.toInt_append_zero]
  simp only [Bool.and_eq_true, decide_eq_true_eq]
  omega

theorem immFits12_immIOf (w : Word) : immFits12 (immIOf w) = true := immFits12_signExtend _
theorem immFits12_immSOf (w : Word) : immFits12 (immSOf w) = true := immFits12_signExtend _
theorem immFitsB_immBOf (w : Word) : immFitsB (immBOf w) = true := immFitsB_signExtend _
theorem immFitsJ_immJOf (w : Word) : immFitsJ (immJOf w) = true := immFitsJ_signExtend _

theorem immFitsU_immUOf (w : Word) : immFitsU (immUOf w) = true := by
  rw [immFitsU, immUOf, BitVec.toInt_append_zero, decide_eq_true_eq]
  omega

/-! ## Each format's layout over a word's own fields -/

/-- Two neighbouring fields of a word, glued. -/
theorem extractLsb'_append (w : Word) (lo m k : Nat) :
    w.extractLsb' (lo + k) m ++ w.extractLsb' lo k = w.extractLsb' lo (m + k) :=
  BitVec.extractLsb'_append_extractLsb'_eq_extractLsb' rfl

theorem encodeR_fields (w : Word) :
    encodeR (funct7Of w) (funct3Of w) (opcodeOf w) (rdOf w) (rs1Of w) (rs2Of w) = w := by
  rw [encodeR, funct7Of, funct3Of, opcodeOf, rdOf, rs1Of, rs2Of, extractLsb'_append w 20 7 5, extractLsb'_append w 15 12 5,
    extractLsb'_append w 12 17 3, extractLsb'_append w 7 20 5, extractLsb'_append w 0 25 7]
  exact BitVec.extractLsb'_eq_self

theorem encodeI_fields (w : Word) : encodeI (funct12Of w) (funct3Of w) (opcodeOf w) (rdOf w) (rs1Of w) = w := by
  rw [encodeI, funct12Of, funct3Of, opcodeOf, rdOf, rs1Of, extractLsb'_append w 15 12 5,
    extractLsb'_append w 12 17 3, extractLsb'_append w 7 20 5, extractLsb'_append w 0 25 7]
  exact BitVec.extractLsb'_eq_self

theorem imm12Of_immIOf (w : Word) : imm12Of (immIOf w) = funct12Of w := by
  ext i hi
  have h32 : i < 32 := by omega
  simp [imm12Of, immIOf, funct12Of, BitVec.getElem_signExtend, hi, h32]

theorem encodeU_fields (w : Word) : encodeU (immUOf w) (opcodeOf w) (rdOf w) = w := by
  have himm : (immUOf w).extractLsb' 12 20 = w.extractLsb' 12 20 := BitVec.extractLsb'_append_eq_left
  rw [encodeU, himm, opcodeOf, rdOf, extractLsb'_append w 7 20 5, extractLsb'_append w 0 25 7]
  exact BitVec.extractLsb'_eq_self

/-! The immediates of S, B and J are scattered over the word, so these three layouts are compared bit by bit. -/

theorem encodeS_fields (w : Word) : encodeS (immSOf w) (funct3Of w) (opcodeOf w) (rs1Of w) (rs2Of w) = w := by
  refine BitVec.eq_of_getLsbD_eq fun i hi => ?_
  simp only [encodeS, immSOf, funct3Of, opcodeOf, rs1Of, rs2Of, BitVec.getLsbD_append, BitVec.getLsbD_extractLsb',
    BitVec.getLsbD_signExtend]
  interval_cases i <;> simp

theorem encodeB_fields (w : Word) : encodeB (immBOf w) (funct3Of w) (opcodeOf w) (rs1Of w) (rs2Of w) = w := by
  refine BitVec.eq_of_getLsbD_eq fun i hi => ?_
  simp only [encodeB, immBOf, funct3Of, opcodeOf, rs1Of, rs2Of, BitVec.getLsbD_append, BitVec.getLsbD_extractLsb',
    BitVec.getLsbD_signExtend]
  interval_cases i <;> simp

theorem encodeJ_fields (w : Word) : encodeJ (immJOf w) (opcodeOf w) (rdOf w) = w := by
  refine BitVec.eq_of_getLsbD_eq fun i hi => ?_
  simp only [encodeJ, immJOf, opcodeOf, rdOf, BitVec.getLsbD_append, BitVec.getLsbD_extractLsb', BitVec.getLsbD_signExtend]
  interval_cases i <;> simp

/-! ## An entry of each format, laid out again -/

section
variable {w : Word} {op : BitVec 7} {f3 : BitVec 3} {f7 : BitVec 7} (hop : opcodeOf w = op)
include hop

theorem reencodes_U : immFitsU (immUOf w) = true ∧ encodeU (immUOf w) op (rdOf w) = w :=
  ⟨immFitsU_immUOf w, hop ▸ encodeU_fields w⟩

theorem reencodes_J : immFitsJ (immJOf w) = true ∧ encodeJ (immJOf w) op (rdOf w) = w :=
  ⟨immFitsJ_immJOf w, hop ▸ encodeJ_fields w⟩

variable (hf3 : funct3Of w = f3)
include hf3

theorem reencodes_I : immFits12 (immIOf w) = true ∧ encodeI (imm12Of (immIOf w)) f3 op (rdOf w) (rs1Of w) = w :=
  ⟨immFits12_immIOf w, hop ▸ hf3 ▸ imm12Of_immIOf w ▸ encodeI_fields w⟩

theorem reencodes_S : immFits12 (immSOf w) = true ∧ encodeS (immSOf w) f3 op (rs1Of w) (rs2Of w) = w :=
  ⟨immFits12_immSOf w, hop ▸ hf3 ▸ encodeS_fields w⟩

theorem reencodes_B : immFitsB (immBOf w) = true ∧ encodeB (immBOf w) f3 op (rs1Of w) (rs2Of w) = w :=
  ⟨immFitsB_immBOf w, hop ▸ hf3 ▸ encodeB_fields w⟩

theorem reencodes_R (hf7 : funct7Of w = f7) : encodeR f7 f3 op (rdOf w) (rs1Of w) (rs2Of w) = w :=
  hop ▸ hf3 ▸ hf7 ▸ encodeR_fields w

theorem reencodes_system {f12 : BitVec 12} (hf12 : funct12Of w = f12) : encodeI f12 f3 op (rdOf w) (rs1Of w) = w :=
  hop ▸ hf3 ▸ hf12 ▸ encodeI_fields w

end

/-! ## The tables: every entry's instruction is well-formed and encodes to the word -/

/-- The funct3 values in which the last branch of the table of opcode 0010011 is reached. -/
theorem funct3_eq_101 :
    ∀ f : BitVec 3, f ≠ 0b000 → f ≠ 0b010 → f ≠ 0b011 → f ≠ 0b100 → f ≠ 0b110 → f ≠ 0b111 → f ≠ 0b001 → f = 0b101 := by
  intro f
  bv_omega

/-- The funct3 values in which the last branch of a full column of opcode 0110011 is reached. -/
theorem funct3_eq_111 :
    ∀ f : BitVec 3, f ≠ 0b000 → f ≠ 0b001 → f ≠ 0b010 → f ≠ 0b011 → f ≠ 0b100 → f ≠ 0b101 → f ≠ 0b110 → f = 0b111 := by
  intro f
  bv_omega

section
variable {w : Word} {i : Instr}

theorem reencodes_of_decodeBranch (hop : opcodeOf w = 0b1100011#7) (h : decodeBranch w = .ok i) : i.WellFormed ∧ encode i = w := by
  unfold decodeBranch at h
  split_ifs at h with hf3 hf3 hf3 hf3 hf3 hf3 <;> cases h <;> exact reencodes_B hop hf3

theorem reencodes_of_decodeLoad (hop : opcodeOf w = 0b0000011#7) (h : decodeLoad w = .ok i) : i.WellFormed ∧ encode i = w := by
  unfold decodeLoad at h
  split_ifs at h with hf3 hf3 hf3 hf3 hf3 <;> cases h <;> exact reencodes_I hop hf3

theorem reencodes_of_decodeStore (hop : opcodeOf w = 0b0100011#7) (h : decodeStore w = .ok i) : i.WellFormed ∧ encode i = w := by
  unfold decodeStore at h
  split_ifs at h with hf3 hf3 hf3 <;> cases h <;> exact reencodes_S hop hf3

theorem reencodes_of_decodeOpImm (hop : opcodeOf w = 0b0010011#7) (h : decodeOpImm w = .ok i) : i.WellFormed ∧ encode i = w := by
  unfold decodeOpImm at h
  split_ifs at h with h0 h2 h3 h4 h6 h7 h1 hslli hsrli hsrai <;> cases h
  · exact reencodes_I hop h0
  · exact reencodes_I hop h2
  · exact reencodes_I hop h3
  · exact reencodes_I hop h4
  · exact reencodes_I hop h6
  · exact reencodes_I hop h7
  · exact ⟨rfl, reencodes_R hop h1 hslli⟩
  · exact ⟨rfl, reencodes_R hop (funct3_eq_101 _ h0 h2 h3 h4 h6 h7 h1) hsrli⟩
  · exact ⟨rfl, reencodes_R hop (funct3_eq_101 _ h0 h2 h3 h4 h6 h7 h1) hsrai⟩

theorem reencodes_of_decodeOpBase (hop : opcodeOf w = 0b0110011#7) (hf7 : funct7Of w = 0b0000000#7) (h : decodeOpBase w = .ok i) :
    i.WellFormed ∧ encode i = w := by
  unfold decodeOpBase at h
  split_ifs at h with h0 h1 h2 h3 h4 h5 h6 <;> cases h
  case neg => exact ⟨rfl, reencodes_R hop (funct3_eq_111 _ h0 h1 h2 h3 h4 h5 h6) hf7⟩
  all_goals exact ⟨rfl, reencodes_R hop ‹_› hf7⟩

theorem reencodes_of_decodeOpAlt (hop : opcodeOf w = 0b0110011#7) (hf7 : funct7Of w = 0b0100000#7) (h : decodeOpAlt w = .ok i) :
    i.WellFormed ∧ encode i = w := by
  unfold decodeOpAlt at h
  split_ifs at h with hf3 hf3 <;> cases h <;> exact ⟨rfl, reencodes_R hop hf3 hf7⟩

theorem reencodes_of_decodeOpMul (hop : opcodeOf w = 0b0110011#7) (hf7 : funct7Of w = 0b0000001#7) (h : decodeOpMul w = .ok i) :
    i.WellFormed ∧ encode i = w := by
  unfold decodeOpMul at h
  split_ifs at h with h0 h1 h2 h3 h4 h5 h6 <;> cases h
  case neg => exact ⟨rfl, reencodes_R hop (funct3_eq_111 _ h0 h1 h2 h3 h4 h5 h6) hf7⟩
  all_goals exact ⟨rfl, reencodes_R hop ‹_› hf7⟩

theorem reencodes_of_decodeOp (hop : opcodeOf w = 0b0110011#7) (h : decodeOp w = .ok i) : i.WellFormed ∧ encode i = w := by
  unfold decodeOp at h
  split_ifs at h with hbase halt hmul
  · exact reencodes_of_decodeOpBase hop hbase h
  · exact reencodes_of_decodeOpAlt hop halt h
  · exact reencodes_of_decodeOpMul hop hmul h

theorem reencodes_of_decodeSystem (hop : opcodeOf w = 0b1110011#7) (h : decodeSystem w = .ok i) : i.WellFormed ∧ encode i = w := by
  unfold decodeSystem at h
  split_ifs at h with hf3 hf12 hf12 <;> cases h <;> exact ⟨rfl, reencodes_system hop hf3 hf12⟩

/-- The round trip of one word: the table its opcode selects, and there the entry its other fields select. -/
theorem encode_of_decode (h : decode w = .ok i) : i.WellFormed ∧ encode i = w := by
  have htop : opcodeOf w ∈ topOpcodes := by
    by_contra hnot
    cases (decode_of_opcode_not_top hnot).symm.trans h
  obtain lui | auipc | jal | jalr | branch | load | store | opImm | op | fence | system := (mem_topOpcodes_iff _).mp htop
  · cases (decode_of_opcode_lui lui).symm.trans h
    exact reencodes_U lui
  · cases (decode_of_opcode_auipc auipc).symm.trans h
    exact reencodes_U auipc
  · cases (decode_of_opcode_jal jal).symm.trans h
    exact reencodes_J jal
  · rw [decode_of_opcode_jalr jalr] at h
    split_ifs at h with hf3
    cases h
    exact reencodes_I jalr hf3
  · exact reencodes_of_decodeBranch branch ((decode_of_opcode_branch branch).symm.trans h)
  · exact reencodes_of_decodeLoad load ((decode_of_opcode_load load).symm.trans h)
  · exact reencodes_of_decodeStore store ((decode_of_opcode_store store).symm.trans h)
  · exact reencodes_of_decodeOpImm opImm ((decode_of_opcode_opImm opImm).symm.trans h)
  · exact reencodes_of_decodeOp op ((decode_of_opcode_op op).symm.trans h)
  · rw [decode_of_opcode_fence fence] at h
    split_ifs at h with hf3
    cases h
    exact reencodes_I fence hf3
  · exact reencodes_of_decodeSystem system ((decode_of_opcode_system system).symm.trans h)

end

/-- Settles O43: every entry of the decoder's tables reads fields that its format lays out as the same word. -/
theorem encodeInvertsDecode : Obligations.EncodeInvertsDecode := by
  unfold Obligations.EncodeInvertsDecode
  exact fun _ _ h => encode_of_decode h

end Sys2Proof.Machine
end

section
/-! The next state of an instruction and of a step (10_state.md R46 to R53), and the invariant along a step. -/

namespace Sys2Proof.Machine

open Sys2Proof.Spec

/-- Every next state of an instruction is the commit of an effect it may have. -/
theorem exec_next_cases {i : Instr} {s t : State} (h : exec i s = .next t) : ∃ e : Effect, t = s.commit e ∧ e.allowed i s := by
  obtain ⟨e, he, hallowed⟩ | ⟨a, w, hf, -⟩ := exec_cases i s
  · cases he.symm.trans h
    exact ⟨e, rfl, hallowed⟩
  · cases hf.symm.trans h

/-- R47: the bound is exhausted when the count is FUEL. -/
theorem boundExhausted_iff (s : State) : s.boundExhausted = true ↔ s.fuel = some s.retired := decide_eq_true_iff

theorem not_boundExhausted_iff (s : State) : s.boundExhausted = false ↔ s.fuel ≠ some s.retired := decide_eq_false_iff_not

/-- A commit of an allowed effect keeps the memory canonical: a store that fits does. -/
theorem wf_commit {s : State} {i : Instr} {e : Effect} (hwf : s.mem.wf) (he : e.allowed i s) : (s.commit e).mem.wf := by
  obtain ⟨-, -, ⟨hnone, -⟩ | ⟨a, w, v, hsome, -, -, hfits⟩⟩ := he
  · rw [commit_mem_none s e hnone]
    exact hwf
  · rw [commit_mem_some s e hsome]
    exact wf_store hwf v hfits

/-- Retiring below the bound keeps the invariant: the count rises by 1, up to FUEL at most. -/
theorem inv_commit {s : State} {i : Instr} {e : Effect} (hinv : s.Inv) (hrun : s.run = .running)
    (hbound : s.boundExhausted = false) (he : e.allowed i s) : (s.commit e).Inv := by
  obtain ⟨hwf, hcount, -, -⟩ := hinv
  rw [not_boundExhausted_iff] at hbound
  refine ⟨wf_commit hwf he, fun n hn => ?count, fun hrun' => ?bound, fun _ => ?halted⟩
  case count =>
    rw [commit_fuel] at hn
    have hle := hcount n hn
    have hne : s.retired ≠ n := by
      rintro rfl
      exact hbound hn
    rw [commit_retired]
    omega
  case bound =>
    rw [commit_run, hrun] at hrun'
    split at hrun' <;> cases hrun'
  case halted =>
    rw [commit_retired]
    exact Nat.succ_pos _

/-- Reaching the bound keeps the invariant: only the run state changes. -/
theorem inv_enterBound {s : State} (hinv : s.Inv) (hbound : s.boundExhausted = true) : s.enterBound.Inv := by
  obtain ⟨hwf, hcount, -, -⟩ := hinv
  exact ⟨hwf, hcount, fun _ => (boundExhausted_iff s).mp hbound, fun hrun => nomatch hrun⟩

/-- Settles O52: a step either reaches the bound or commits an effect of the fetched instruction, and both keep the invariant. -/
theorem everyStepKeepsTheInvariant : Obligations.EveryStepKeepsTheInvariant := by
  unfold Obligations.EveryStepKeepsTheInvariant
  intro s t hinv hstep
  obtain ⟨hrun, ⟨hbound, rfl⟩ | ⟨hbound, w, i, -, hexec⟩⟩ := step_next_cases hstep
  · exact inv_enterBound hinv hbound
  · obtain ⟨e, rfl, he⟩ := exec_next_cases hexec
    exact inv_commit hinv hrun hbound he

end Sys2Proof.Machine
end

section
/-! The frames of an instruction (10_state.md R26, 20_memory.md section 1): what its effect cannot reach. -/

namespace Sys2Proof.Machine

open Sys2Proof.Spec

/-- A register that an effect does not name reads as before, and x0 always does. -/
theorem readReg_commit_of_ne {s : State} {e : Effect} {r : RegIdx} (h : e.regWrite.map Prod.fst ≠ some r ∨ r = 0) :
    (s.commit e).readReg r = s.readReg r := by
  rw [commit_readReg]
  obtain hne | rfl := h
  · match hw : e.regWrite with
    | none => rfl
    | some (q, v) =>
      have hrq : r ≠ q := by
        rintro rfl
        simp [hw] at hne
      exact readReg_writeReg_ne s v hrq
  · exact (readReg_zero _).trans (readReg_zero s).symm

/-- Settles O26: the effect's register write is of the destination register. -/
theorem onlyTheDestinationRegisterChanges : Obligations.OnlyTheDestinationRegisterChanges := by
  unfold Obligations.OnlyTheDestinationRegisterChanges
  intro i s t hexec r hr
  obtain ⟨e, rfl, hreg, -, -⟩ := exec_next_cases hexec
  exact readReg_commit_of_ne (hreg ▸ hr)

/-- Settles O27: the effect's memory write is a store's, at its effective address. -/
theorem onlyStoredBytesChange : Obligations.OnlyStoredBytesChange := by
  unfold Obligations.OnlyStoredBytesChange
  intro i s t hexec x hx
  obtain ⟨e, rfl, -, -, ⟨hnone, -⟩ | ⟨a, w, v, hsome, hformat, haccess, -⟩⟩ := exec_next_cases hexec
  · exact sameMem_commit s hnone x
  · have houtside := hx a w hformat haccess
    have hnot : ¬ (a.toNat ≤ x ∧ x < a.toNat + w.bytes) := by omega
    rw [State.readByte, commit_mem_some s e hsome, byte_store, if_neg hnot, State.readByte]

end Sys2Proof.Machine
end

section
/-! Data accesses at the top of the address space (20_memory.md R66): the one way in which an instruction faults. -/

namespace Sys2Proof.Machine

open Sys2Proof.Spec

theorem fits_of_le {a : Word} {w : Width} (h : a.toNat + w.bytes ≤ 4294967296) : fits a w = true := (fits_iff a w).mpr h

theorem fits_eq_false_iff (a : Word) (w : Width) : fits a w = false ↔ 4294967296 < a.toNat + w.bytes := by
  rw [← Bool.not_eq_true, fits_iff, addressSpace, not_le]

section
variable (s : State) (rd : RegIdx) {addr : Word} {w : Width} (ext : Word → Word) (v : Word)

theorem retireLoad_of_fits (h : fits addr w = true) :
    s.retireLoad rd addr w ext = s.retireReg rd (ext (s.mem.load addr w)) := by
  simp [State.retireLoad, loadMem_fits s h]

theorem retireLoad_of_wraps (h : fits addr w = false) : s.retireLoad rd addr w ext = .fault (s.wrapFault addr w) := by
  simp [State.retireLoad, loadMem_wraps s h]

theorem retireStore_of_fits (h : fits addr w = true) :
    s.retireStore addr w v = .next (s.commit { memWrite := some (addr, w, v), npc := s.nextPc }) := by
  simp [State.retireStore, h]

theorem retireStore_of_wraps (h : fits addr w = false) : s.retireStore addr w v = .fault (s.wrapFault addr w) := by
  simp [State.retireStore, h]

end

section
variable (rd rs1 rs2 : RegIdx) (imm : Word) (s : State)

theorem exec_lb : exec (.lb rd rs1 imm) s = s.retireLoad rd (s.readReg rs1 + imm) .byte sext8 := rfl
theorem exec_lh : exec (.lh rd rs1 imm) s = s.retireLoad rd (s.readReg rs1 + imm) .half sext16 := rfl
theorem exec_lw : exec (.lw rd rs1 imm) s = s.retireLoad rd (s.readReg rs1 + imm) .word fullWord := rfl
theorem exec_lbu : exec (.lbu rd rs1 imm) s = s.retireLoad rd (s.readReg rs1 + imm) .byte zext8 := rfl
theorem exec_lhu : exec (.lhu rd rs1 imm) s = s.retireLoad rd (s.readReg rs1 + imm) .half zext16 := rfl
theorem exec_sb : exec (.sb rs1 rs2 imm) s = s.retireStore (s.readReg rs1 + imm) .byte (s.readReg rs2) := rfl
theorem exec_sh : exec (.sh rs1 rs2 imm) s = s.retireStore (s.readReg rs1 + imm) .half (s.readReg rs2) := rfl
theorem exec_sw : exec (.sw rs1 rs2 imm) s = s.retireStore (s.readReg rs1 + imm) .word (s.readReg rs2) := rfl

end

/-- A load or store whose bytes cross the top is AccessWrap of its own access. -/
theorem exec_of_dataAccess_wraps {i : Instr} {s : State} {a : Word} {w : Width} (haccess : i.dataAccess s = some (a, w))
    (hwraps : fits a w = false) : exec i s = .fault (s.wrapFault a w) := by
  cases i <;> cases haccess
  case lb | lh | lw | lbu | lhu => exact retireLoad_of_wraps s _ _ hwraps
  case sb | sh | sw => exact retireStore_of_wraps s _ hwraps

/-- A fault of an instruction is AccessWrap of its own data access. -/
theorem exec_fault_cases {i : Instr} {s : State} {f : Fault} (h : exec i s = .fault f) :
    ∃ a w, i.dataAccess s = some (a, w) ∧ fits a w = false ∧ f = s.wrapFault a w := by
  obtain ⟨e, he, -⟩ | ⟨a, w, hf, haccess, hwraps⟩ := exec_cases i s
  · cases he.symm.trans h
  · cases hf.symm.trans h
    exact ⟨a, w, haccess, hwraps, rfl⟩

theorem exec_ne_refused (i : Instr) (s : State) (r : Refusal) : exec i s ≠ .refused r := by
  intro h
  obtain ⟨e, he, -⟩ | ⟨a, w, hf, -⟩ := exec_cases i s
  · cases he.symm.trans h
  · cases hf.symm.trans h

/-- Settles O29: the data access decides the fault in both directions, and no answer is a refusal. -/
theorem onlyDataAccessAcrossTheTopFaults : Obligations.OnlyDataAccessAcrossTheTopFaults := by
  unfold Obligations.OnlyDataAccessAcrossTheTopFaults
  refine fun i s => ⟨fun f => ⟨fun h => ?_, ?_⟩, exec_ne_refused i s⟩
  · obtain ⟨a, w, haccess, hwraps, rfl⟩ := exec_fault_cases h
    exact ⟨a, w, haccess, (fits_eq_false_iff a w).mp hwraps, rfl⟩
  · rintro ⟨a, w, haccess, hwraps, rfl⟩
    exact exec_of_dataAccess_wraps haccess ((fits_eq_false_iff a w).mpr hwraps)

end Sys2Proof.Machine
end

section
/-! The count, the bound and the run state are read by no instruction (10_state.md R37, 60_exceptions.md R165). -/

namespace Sys2Proof.Machine

open Sys2Proof.Spec

/-- The state with another run state, count and bound. -/
def State.recount (s : State) (run : RunState) (retired : Nat) (fuel : Option Nat) : State :=
  { s with run := run, retired := retired, fuel := fuel }

section
variable (s : State) (run : RunState) (n : Nat) (fuel : Option Nat)

theorem recount_readReg (r : RegIdx) : (s.recount run n fuel).readReg r = s.readReg r := rfl

/-- The registers, the pc and the memory of a commit do not depend on the count. -/
theorem commit_recount (e : Effect) :
    SameRegs (s.commit e) ((s.recount run n fuel).commit e) ∧ ((s.recount run n fuel).commit e).pc = (s.commit e).pc ∧
      ((s.recount run n fuel).commit e).mem = (s.commit e).mem := by
  refine ⟨fun r => ?_, rfl, ?_⟩
  · simp only [commit_readReg]
    match e.regWrite with
    | none => rfl
    | some (q, v) => simp only [applyRegWrite_some, readReg_writeReg, recount_readReg]
  · match h : e.memWrite with
    | none => rw [commit_mem_none _ e h, commit_mem_none _ e h, State.recount]
    | some (a, w, v) => rw [commit_mem_some _ e h, commit_mem_some _ e h, State.recount]

/-- A load that runs computes the same effect whatever the count. -/
theorem retireLoad_recount {rd : RegIdx} {a : Word} {w : Width} {ext : Word → Word} {t : State}
    (h : s.retireLoad rd a w ext = .next t) :
    ∃ e : Effect, t = s.commit e ∧ (s.recount run n fuel).retireLoad rd a w ext = .next ((s.recount run n fuel).commit e) := by
  obtain ⟨hfits, hs⟩ | ⟨-, hs⟩ := retireLoad_cases s rd a w ext
  · cases hs.symm.trans h
    exact ⟨_, rfl, retireLoad_of_fits _ rd ext hfits⟩
  · cases hs.symm.trans h

theorem retireStore_recount {a : Word} {w : Width} {v : Word} {t : State} (h : s.retireStore a w v = .next t) :
    ∃ e : Effect, t = s.commit e ∧ (s.recount run n fuel).retireStore a w v = .next ((s.recount run n fuel).commit e) := by
  obtain ⟨hfits, hs⟩ | ⟨-, hs⟩ := retireStore_cases s a w v
  · cases hs.symm.trans h
    exact ⟨_, rfl, retireStore_of_fits _ v hfits⟩
  · cases hs.symm.trans h

/-- An instruction that runs computes the same effect whatever the count: its operands are registers, pc and memory. -/
theorem exec_recount {i : Instr} {t : State} (h : exec i s = .next t) :
    ∃ e : Effect, t = s.commit e ∧ exec i (s.recount run n fuel) = .next ((s.recount run n fuel).commit e) := by
  cases i
  case lb | lh | lw | lbu | lhu => exact retireLoad_recount s run n fuel h
  case sb | sh | sw => exact retireStore_recount s run n fuel h
  all_goals
    cases h
    exact ⟨_, rfl, rfl⟩

end

/-- Register x(k+1) is entry k of the register file. -/
theorem readReg_succ (s : State) {k : Nat} (hk : k < 31) : s.readReg (BitVec.ofNat 5 (k + 1)) = s.regs[k] := by
  have hidx : (BitVec.ofNat 5 (k + 1)).toNat = k + 1 := by
    rw [BitVec.toNat_ofNat]
    omega
  have hne : BitVec.ofNat 5 (k + 1) ≠ 0#5 := by
    intro h0
    rw [h0] at hidx
    simp at hidx
  simp [State.readReg, hne, hidx, hk]

/-- The register file is what the registers read as: x1 to x31 are its entries. -/
theorem regs_eq_of_sameRegs {s u : State} (h : SameRegs s u) : u.regs = s.regs := by
  refine Vector.ext fun k hk => ?_
  rw [← readReg_succ u hk, ← readReg_succ s hk]
  exact h _

/-- Settles O30: two states that agree on registers, pc and memory differ by a recount, which no effect sees. -/
theorem countIsInvisibleToInstructions : Obligations.CountIsInvisibleToInstructions := by
  unfold Obligations.CountIsInvisibleToInstructions
  intro i s u t hregs hpc hmem hexec
  have hu : u = s.recount u.run u.retired u.fuel := by
    rw [State.recount, ← regs_eq_of_sameRegs hregs, ← hpc, ← hmem]
  obtain ⟨e, rfl, he⟩ := exec_recount s u.run u.retired u.fuel hexec
  rw [hu]
  exact ⟨_, he, commit_recount s u.run u.retired u.fuel e⟩

end Sys2Proof.Machine
end

section
/-! The next pc of an instruction (10_state.md R30). -/

namespace Sys2Proof.Machine

open Sys2Proof.Spec

section
variable {i : Instr} {s t : State} (hnext : exec i s = .next t)
include hnext

/-- The next pc of a branch whose comparison decides `taken`: the target when it is taken, else the default. -/
theorem pc_of_branch {c : Bool} {taken : Prop} {imm : Word} (h : exec i s = s.retirePc (s.branchPc c imm))
    (hcond : c = true ↔ taken) : (taken → t.pc = s.pc + imm) ∧ (¬ taken → t.pc = s.pc + 4) := by
  cases h.symm.trans hnext
  exact ⟨fun htaken => branchPc_taken s imm (hcond.mpr htaken), fun hnot => branchPc_not_taken s imm (mt hcond.mp hnot)⟩

theorem pc_of_load {rd : RegIdx} {a : Word} {w : Width} {ext : Word → Word} (h : exec i s = s.retireLoad rd a w ext) :
    t.pc = s.pc + 4 := by
  obtain ⟨-, hs⟩ | ⟨-, hs⟩ := retireLoad_cases s rd a w ext
  · cases (h.trans hs).symm.trans hnext
    rfl
  · cases (h.trans hs).symm.trans hnext

theorem pc_of_store {a : Word} {w : Width} {v : Word} (h : exec i s = s.retireStore a w v) : t.pc = s.pc + 4 := by
  obtain ⟨-, hs⟩ | ⟨-, hs⟩ := retireStore_cases s a w v
  · cases (h.trans hs).symm.trans hnext
    rfl
  · cases (h.trans hs).symm.trans hnext

/-- A taken branch goes to its target. -/
theorem pc_of_taken (hformat : i.format = .B) (htaken : Taken s i) : ∃ imm, i.imm = some imm ∧ t.pc = s.pc + imm := by
  cases i <;> cases hformat
  case beq => exact ⟨_, rfl, (pc_of_branch hnext (exec_beq ..) (condEq_iff ..)).1 htaken⟩
  case bne => exact ⟨_, rfl, (pc_of_branch hnext (exec_bne ..) (not_condEq_iff ..)).1 htaken⟩
  case blt => exact ⟨_, rfl, (pc_of_branch hnext (exec_blt ..) (condLt_iff ..)).1 htaken⟩
  case bge => exact ⟨_, rfl, (pc_of_branch hnext (exec_bge ..) (not_condLt_iff ..)).1 htaken⟩
  case bltu => exact ⟨_, rfl, (pc_of_branch hnext (exec_bltu ..) (condLtu_iff ..)).1 htaken⟩
  case bgeu => exact ⟨_, rfl, (pc_of_branch hnext (exec_bgeu ..) (not_condLtu_iff ..)).1 htaken⟩

/-- Everything but a jump or a taken branch goes to the default next pc. -/
theorem pc_of_fallThrough (hnot : ¬ Taken s i) (hjal : ∀ rd imm, i ≠ .jal rd imm) (hjalr : ∀ rd rs1 imm, i ≠ .jalr rd rs1 imm) :
    t.pc = s.pc + 4 := by
  cases i
  case jal rd imm => exact absurd rfl (hjal rd imm)
  case jalr rd rs1 imm => exact absurd rfl (hjalr rd rs1 imm)
  case beq => exact (pc_of_branch hnext (exec_beq ..) (condEq_iff ..)).2 hnot
  case bne => exact (pc_of_branch hnext (exec_bne ..) (not_condEq_iff ..)).2 hnot
  case blt => exact (pc_of_branch hnext (exec_blt ..) (condLt_iff ..)).2 hnot
  case bge => exact (pc_of_branch hnext (exec_bge ..) (not_condLt_iff ..)).2 hnot
  case bltu => exact (pc_of_branch hnext (exec_bltu ..) (condLtu_iff ..)).2 hnot
  case bgeu => exact (pc_of_branch hnext (exec_bgeu ..) (not_condLtu_iff ..)).2 hnot
  case lb | lh | lw | lbu | lhu => exact pc_of_load hnext rfl
  case sb | sh | sw => exact pc_of_store hnext rfl
  all_goals
    cases hnext
    rfl

end

/-- Settles O28: the jumps commit their target, a branch its target or the default, every other instruction the default. -/
theorem nextPcIsTargetOrFallThrough : Obligations.NextPcIsTargetOrFallThrough := by
  unfold Obligations.NextPcIsTargetOrFallThrough
  refine fun i s t hnext => ⟨?jal, ?jalr, pc_of_taken hnext, pc_of_fallThrough hnext⟩
  case jal =>
    rintro rd imm rfl
    cases hnext
    rfl
  case jalr =>
    rintro rd rs1 imm rfl
    cases hnext
    rfl

end Sys2Proof.Machine
end

section
/-! Little-endian reads (20_memory.md R62): the value of a read, as a sum and as the bytes side by side. -/

namespace Sys2Proof.Machine

open Sys2Proof.Spec

/-- R62: `MemRead(a, n)` is the sum over k < n of mem[a + k] * 2^(8k). -/
theorem readLE_eq_sum (m : Memory) (a n : Nat) :
    m.readLE a n = ∑ k ∈ Finset.range n, (m.byte (a + k)).toNat * 2 ^ (8 * k) := by
  induction n generalizing a with
  | zero => rfl
  | succ n ih =>
    have hshift : ∀ k, (m.byte (a + 1 + k)).toNat * 2 ^ (8 * k) * 256 = (m.byte (a + (k + 1))).toNat * 2 ^ (8 * (k + 1)) := by
      intro k
      rw [Nat.add_assoc a 1 k, Nat.add_comm 1 k]
      ring
    rw [Memory.readLE, ih, Finset.sum_range_succ', Nat.mul_comm 256, Finset.sum_mul, Finset.sum_congr rfl fun k _ => hshift k]
    simp [Nat.add_comm]

/-- A read of at most four bytes is its own 32-bit value. -/
theorem load_toNat (m : Memory) (a : Word) (w : Width) : (m.load a w).toNat = m.readLE a.toNat w.bytes := by
  have hlt := readLE_lt w.bytes m a.toNat
  have hle : 256 ^ w.bytes ≤ 2 ^ 32 := by cases w <;> decide
  rw [Memory.load, BitVec.toNat_ofNat, Nat.mod_eq_of_lt (hlt.trans_le hle)]

/-- Settles O39: the read of the model as a sum, and its bound 256^n. -/
theorem readIsLittleEndianSum : Obligations.ReadIsLittleEndianSum := by
  unfold Obligations.ReadIsLittleEndianSum
  refine fun m a w => ⟨?sum, ?bound⟩
  case sum => rw [load_toNat, readLE_eq_sum]
  case bound =>
    rw [load_toNat, pow_mul]
    exact readLE_lt w.bytes m a.toNat

/-- A byte below a value: its number is the low digit in base 256. -/
theorem toNat_append_byte {n : Nat} (x : BitVec n) (b : Byte) : (x ++ b).toNat = b.toNat + 256 * x.toNat := by
  rw [BitVec.toNat_append, ← Nat.shiftLeft_add_eq_or_of_lt b.isLt, Nat.shiftLeft_eq, Nat.add_comm, Nat.mul_comm]

theorem load_byte_eq (m : Memory) (a : Word) : m.load a .byte = (m.byte a.toNat).setWidth 32 := by
  apply BitVec.eq_of_toNat_eq
  have hlt := (m.byte a.toNat).isLt
  simp only [load_toNat, Width.bytes, Memory.readLE, BitVec.toNat_setWidth]
  omega

theorem load_half_eq (m : Memory) (a : Word) :
    m.load a .half = (m.byte (a.toNat + 1) ++ m.byte a.toNat : BitVec 16).setWidth 32 := by
  apply BitVec.eq_of_toNat_eq
  have h0 := (m.byte a.toNat).isLt
  have h1 := (m.byte (a.toNat + 1)).isLt
  simp only [load_toNat, Width.bytes, Memory.readLE, BitVec.toNat_setWidth, toNat_append_byte]
  omega

theorem load_word_eq (m : Memory) (a : Word) :
    m.load a .word = m.byte (a.toNat + 3) ++ m.byte (a.toNat + 2) ++ m.byte (a.toNat + 1) ++ m.byte a.toNat := by
  apply BitVec.eq_of_toNat_eq
  simp only [load_toNat, Width.bytes, Memory.readLE, toNat_append_byte, Nat.add_assoc, Nat.reduceAdd, Nat.mul_zero, Nat.add_zero]

/-- The word at an address in the words of the statements. -/
theorem load_eq_word (s : State) (a : Word) : s.mem.load a .word = word s a := load_word_eq s.mem a

theorem load_eq_half (s : State) (a : Word) : s.mem.load a .half = (half s a).setWidth 32 := load_half_eq s.mem a

theorem load_eq_byte (s : State) (a : Word) : s.mem.load a .byte = (s.readByte a.toNat).setWidth 32 := load_byte_eq s.mem a

/-- A field of a word as a shift and a mask (00_scope.md R12). -/
theorem setWidth_extractLsb' (v : Word) (lo : Nat) {len : Nat} (hlen : len < 32) :
    (v.extractLsb' lo len).setWidth 32 = (v >>> lo) &&& BitVec.ofNat 32 (2 ^ len - 1) := by
  have hmask : 2 ^ len - 1 < 2 ^ 32 := (Nat.sub_le _ _).trans_lt (Nat.pow_lt_pow_right (by decide) hlen)
  have hfield : (v.toNat >>> lo) % 2 ^ len < 2 ^ 32 :=
    (Nat.mod_lt _ (Nat.two_pow_pos len)).trans (Nat.pow_lt_pow_right (by decide) hlen)
  apply BitVec.eq_of_toNat_eq
  rw [BitVec.toNat_setWidth, BitVec.extractLsb'_toNat, Nat.mod_eq_of_lt hfield, BitVec.toNat_and, BitVec.toNat_ushiftRight,
    BitVec.toNat_ofNat, Nat.mod_eq_of_lt hmask, Nat.and_two_pow_sub_one_eq_mod]

/-- Byte k of a word just stored, in bits 8k+7 to 8k (R63). -/
theorem byte_store_word (m : Memory) (a v : Word) {k : Nat} (hk : k < 4) :
    (m.store a .word v).byte (a.toNat + k) = v.extractLsb' (8 * k) 8 := by
  have hin : a.toNat ≤ a.toNat + k ∧ a.toNat + k < a.toNat + Width.word.bytes := by
    simp only [Width.bytes]
    omega
  rw [byte_store, if_pos hin, Nat.add_sub_cancel_left]
  apply BitVec.eq_of_toNat_eq
  simp

/-- Settles O40: the narrow reads as bytes side by side, each byte of the word stored. -/
theorem narrowReadsSeeTheStoredWord : Obligations.NarrowReadsSeeTheStoredWord := by
  unfold Obligations.NarrowReadsSeeTheStoredWord
  intro m a v ha
  have h3 : (a + 3).toNat = a.toNat + 3 := by bv_omega
  have h1 : (a + 1).toNat = a.toNat + 1 := by bv_omega
  have hbyte0 := byte_store_word m a v (k := 0) (by decide)
  rw [Nat.add_zero] at hbyte0
  refine ⟨?byte0, ?byte3, ?half0, ?half1⟩
  case byte0 =>
    rw [load_byte_eq, hbyte0, setWidth_extractLsb' v 0 (by decide), BitVec.ushiftRight_zero]
    rfl
  case byte3 =>
    rw [load_byte_eq, h3, byte_store_word m a v (by decide)]
    apply BitVec.eq_of_toNat_eq
    have hv := v.isLt
    simp only [BitVec.toNat_setWidth, BitVec.extractLsb'_toNat, BitVec.toNat_ushiftRight, Nat.shiftRight_eq_div_pow]
    omega
  case half0 =>
    rw [load_half_eq, byte_store_word m a v (by decide), hbyte0, extractLsb'_append v 0 8 8, setWidth_extractLsb' v 0 (by decide),
      BitVec.ushiftRight_zero]
    rfl
  case half1 =>
    rw [load_half_eq, h1, Nat.add_assoc, byte_store_word m a v (by decide), byte_store_word m a v (by decide),
      extractLsb'_append v 8 8 8, setWidth_extractLsb' v 8 (by decide)]
    rfl

/-- SW that runs has committed the store of `x[rs2]` and gone to the default next pc. -/
theorem exec_sw_next {rs1 rs2 : RegIdx} {imm : Word} {s t : State} (h : exec (.sw rs1 rs2 imm) s = .next t) :
    t = s.commit { memWrite := some (s.readReg rs1 + imm, .word, s.readReg rs2), npc := s.nextPc } := by
  rw [exec_sw] at h
  obtain ⟨-, hs⟩ | ⟨-, hs⟩ := retireStore_cases s (s.readReg rs1 + imm) .word (s.readReg rs2)
  · cases hs.symm.trans h
    rfl
  · cases hs.symm.trans h

/-- LW that runs has written the word at its effective address to `rd`. -/
theorem exec_lw_next {rd rs1 : RegIdx} {imm : Word} {s t : State} (h : exec (.lw rd rs1 imm) s = .next t) :
    t = s.commit { regWrite := some (rd, s.mem.load (s.readReg rs1 + imm) .word), npc := s.nextPc } := by
  rw [exec_lw] at h
  obtain ⟨-, hs⟩ | ⟨-, hs⟩ := retireLoad_cases s rd (s.readReg rs1 + imm) .word fullWord
  · cases hs.symm.trans h
    rfl
  · cases hs.symm.trans h

/-- Settles O12: SW leaves the base register, so LW reads the four bytes that SW wrote. -/
theorem storedWordLoadsBack : Obligations.StoredWordLoadsBack := by
  unfold Obligations.StoredWordLoadsBack
  intro s t u rs1 rs2 rd imm hrd hstore hload
  have hbase : t.readReg rs1 = s.readReg rs1 := exec_sw_next hstore ▸ sameRegs_commit s rfl rs1
  have hmem : t.mem = s.mem.store (s.readReg rs1 + imm) .word (s.readReg rs2) := by
    rw [exec_sw_next hstore, commit_mem_some s _ rfl]
  rw [exec_lw_next hload, (onlyReg_commit t rd _ _).2.1 hrd, hbase, hmem, load_store_word]

end Sys2Proof.Machine
end

section
/-! The canonical form of a memory (log 16). -/

namespace Sys2Proof.Machine

/-- A canonical memory lists no byte below its first address. -/
theorem byte_eq_zero_of_lt_head {m : Memory} {a : Nat} (h : ∀ c ∈ m, a < c.1) : m.byte a = 0 := by
  induction m with
  | nil => rfl
  | cons c rest ih =>
    obtain ⟨k, b⟩ := c
    have hne : k ≠ a := (h (k, b) List.mem_cons_self).ne'
    rw [Memory.byte, if_neg hne]
    exact ih fun c hc => h c (List.mem_cons_of_mem _ hc)

theorem byte_cons_self (k : Nat) (b : Byte) (m : Memory) : Memory.byte ((k, b) :: m) k = b := if_pos rfl

theorem byte_cons_ne {k a : Nat} (b : Byte) (m : Memory) (h : k ≠ a) : Memory.byte ((k, b) :: m) a = m.byte a := if_neg h

/-- The parts of a canonical memory that is not empty. -/
theorem wf_cons_iff (k : Nat) (b : Byte) (m : Memory) :
    Memory.wf ((k, b) :: m) ↔ (∀ c ∈ m, k < c.1) ∧ b ≠ 0 ∧ k < addressSpace ∧ Memory.wf m := by
  simp only [Memory.wf, List.pairwise_cons, List.forall_mem_cons, Memory.unlisted]
  tauto

/-- The first address of a canonical memory is not below the first address of another that reads the same. -/
theorem not_lt_head {k k' : Nat} {b b' : Byte} {m m' : Memory} (hwf : Memory.wf ((k, b) :: m)) (hwf' : Memory.wf ((k', b') :: m'))
    (h : ∀ a, Memory.byte ((k, b) :: m) a = Memory.byte ((k', b') :: m') a) : ¬ k < k' := by
  intro hlt
  obtain ⟨-, hb, -, -⟩ := (wf_cons_iff k b m).mp hwf
  obtain ⟨hrise', -, -, -⟩ := (wf_cons_iff k' b' m').mp hwf'
  have hzero : Memory.byte ((k', b') :: m') k = 0 := by
    refine byte_eq_zero_of_lt_head fun c hc => ?_
    obtain rfl | hc := List.mem_cons.mp hc
    · exact hlt
    · exact hlt.trans (hrise' c hc)
  exact hb ((byte_cons_self k b m).symm.trans ((h k).trans hzero))

/-- Canonical memories that read the same have the same first entry, and so on down the list. -/
theorem eq_of_byte_eq {m m' : Memory} (hwf : m.wf) (hwf' : m'.wf) (h : ∀ a, m.byte a = m'.byte a) : m = m' := by
  induction m generalizing m' with
  | nil =>
    match m' with
    | [] => rfl
    | (k', b') :: rest' =>
      obtain ⟨-, hb', -, -⟩ := (wf_cons_iff k' b' rest').mp hwf'
      exact absurd ((h k').trans (byte_cons_self k' b' rest')).symm hb'
  | cons c rest ih =>
    obtain ⟨k, b⟩ := c
    obtain ⟨hrise, hb, -, hrest⟩ := (wf_cons_iff k b rest).mp hwf
    match m' with
    | [] => exact absurd ((byte_cons_self k b rest).symm.trans (h k)) hb
    | (k', b') :: rest' =>
      obtain ⟨hrise', -, -, hrest'⟩ := (wf_cons_iff k' b' rest').mp hwf'
      obtain rfl : k = k' := le_antisymm (not_lt.mp (not_lt_head hwf' hwf fun a => (h a).symm)) (not_lt.mp (not_lt_head hwf hwf' h))
      obtain rfl : b = b' := (byte_cons_self k b rest).symm.trans ((h k).trans (byte_cons_self k b' rest'))
      have htail : ∀ a, Memory.byte rest a = Memory.byte rest' a := by
        intro a
        by_cases ha : k = a
        · subst ha
          rw [byte_eq_zero_of_lt_head hrise, byte_eq_zero_of_lt_head hrise']
        · rw [← byte_cons_ne b rest ha, h a, byte_cons_ne b rest' ha]
      rw [ih hrest hrest' htail]

/-- Settles O41: by induction on the lists, whose first addresses and first bytes agree. -/
theorem canonicalMemoriesAreDeterminedByTheirBytes : Obligations.CanonicalMemoriesAreDeterminedByTheirBytes := by
  unfold Obligations.CanonicalMemoriesAreDeterminedByTheirBytes
  exact fun _ _ hwf hwf' h => eq_of_byte_eq hwf hwf' h

end Sys2Proof.Machine
end

section
/-! The step (10_state.md R46, 60_exceptions.md R158): what it is where the state steps, what it is where it does not, and what a fault
leaves (R153). -/

namespace Sys2Proof.Machine

open Sys2Proof.Spec

section
variable {s : State}

theorem boundExhausted_of_steps (h : Steps s) : s.boundExhausted = false := (not_boundExhausted_iff s).mpr h.2

theorem step_of_fetched (h : Steps s) {w : Word} {i : Instr} (hf : s.fetchInstr = .ok (w, i)) : step s = exec i s := by
  simp [step, h.1, boundExhausted_of_steps h, hf]

theorem step_of_fetch_error (h : Steps s) {f : Fault} (hf : s.fetchInstr = .error f) : step s = .fault f := by
  simp [step, h.1, boundExhausted_of_steps h, hf]

theorem step_of_boundExhausted (hrun : s.run = .running) (hbound : s.boundExhausted = true) : step s = .next s.enterBound := by
  simp [step, hrun, hbound]

theorem step_of_not_running (hrun : s.run ≠ .running) : step s = .refused (.notRunning s.run) := by
  unfold step
  split
  · next h => exact absurd h hrun
  · rfl

/-- A Running state always steps or faults. -/
theorem not_running_of_refused {q : Refusal} (h : step s = .refused q) : s.run ≠ .running := by
  intro hrun
  cases hbound : s.boundExhausted with
  | true => cases (step_of_boundExhausted hrun hbound).symm.trans h
  | false =>
    have hsteps : Steps s := ⟨hrun, (not_boundExhausted_iff s).mp hbound⟩
    match hf : s.fetchInstr with
    | .ok (w, i) => exact exec_ne_refused i s q ((step_of_fetched hsteps hf).symm.trans h)
    | .error f => cases (step_of_fetch_error hsteps hf).symm.trans h

/-- R48, R49: a word that lies below the top and decodes is fetched with its instruction. -/
theorem fetchInstr_of_decode_ok (hfits : fits s.pc .word = true) {i : Instr} (hdecode : decode (word s s.pc) = .ok i) :
    s.fetchInstr = .ok (word s s.pc, i) := by
  simp [State.fetchInstr, State.fetch, loadMem_fits s hfits, load_eq_word, hdecode]

theorem fetchInstr_of_decode_error (hfits : fits s.pc .word = true) {r : DecodeReject} (hdecode : decode (word s s.pc) = .error r) :
    s.fetchInstr = .error (.decodeError s.pc (word s s.pc)) := by
  simp [State.fetchInstr, State.fetch, loadMem_fits s hfits, load_eq_word, hdecode]

theorem fetchInstr_of_wraps (hwraps : fits s.pc .word = false) : s.fetchInstr = .error (s.wrapFault s.pc .word) := by
  simp [State.fetchInstr, State.fetch, loadMem_wraps s hwraps]

/-- What is fetched is the word at the pc and what it decodes to. -/
theorem decode_of_fetched {w : Word} {i : Instr} (hf : s.fetchInstr = .ok (w, i)) : w = word s s.pc ∧ decode w = .ok i := by
  obtain ⟨j, hok, -, hdecode⟩ | ⟨herr, -⟩ | ⟨r, herr, -⟩ := fetchInstr_cases s
  · cases hok.symm.trans hf
    exact ⟨load_eq_word s s.pc, hdecode⟩
  · cases herr.symm.trans hf
  · cases herr.symm.trans hf

theorem step_of_decode_ok (h : Steps s) (hpc : s.pc.toNat + 4 ≤ 4294967296) {i : Instr} (hdecode : decode (word s s.pc) = .ok i) :
    step s = exec i s :=
  step_of_fetched h (fetchInstr_of_decode_ok (fits_of_le hpc) hdecode)

theorem step_of_decode_error (h : Steps s) (hpc : s.pc.toNat + 4 ≤ 4294967296) {r : DecodeReject}
    (hdecode : decode (word s s.pc) = .error r) : step s = .fault (.decodeError s.pc (word s s.pc)) :=
  step_of_fetch_error h (fetchInstr_of_decode_error (fits_of_le hpc) hdecode)

/-! ## What a step leaves -/

theorem advance_of_fault {f : Fault} (h : step s = .fault f) : advance s = s.enterFaulted f := by
  simp [advance, h]

theorem advance_of_next {t : State} (h : step s = .next t) : advance s = t := by
  simp [advance, h]

theorem advance_of_not_running (hrun : s.run ≠ .running) : advance s = s := by
  simp [advance, step_of_not_running hrun]

/-! ## The retire record (60_exceptions.md R160) -/

theorem retireRecord_of_exec (h : Steps s) {w : Word} {i : Instr} {t : State} (hf : s.fetchInstr = .ok (w, i))
    (hexec : exec i s = .next t) :
    retireRecord s = some { pc := s.pc, inst := w, touched := touchedRegs i s t, decoded := i } := by
  simp [retireRecord, h.1, boundExhausted_of_steps h, hf, hexec]

/-- A step that does not retire an instruction emits no record. -/
theorem retireRecord_of_fault {f : Fault} (h : step s = .fault f) : retireRecord s = none := by
  obtain ⟨hrun, hbound, hfetch | ⟨w, i, hfetch, hexec⟩⟩ := step_fault_cases h
  · simp [retireRecord, hrun, hbound, hfetch]
  · simp [retireRecord, hrun, hbound, hfetch, hexec]

theorem retireRecord_of_boundExhausted (hbound : s.boundExhausted = true) : retireRecord s = none := by
  unfold retireRecord
  split <;> simp [hbound]

theorem retireRecord_of_not_running (hrun : s.run ≠ .running) : retireRecord s = none := by
  unfold retireRecord
  split
  · next h => exact absurd h hrun
  · rfl

/-- A record is of a step that executes the instruction fetched. -/
theorem retireRecord_some_cases {r : RetireRecord} (h : retireRecord s = some r) :
    ∃ t, step s = .next t ∧ r.inst = word s s.pc ∧ decode r.inst = .ok r.decoded ∧ exec r.decoded s = .next t ∧ r.pc = s.pc ∧
      r.touched = touchedRegs r.decoded s t := by
  cases hstep : step s with
  | refused q =>
    cases (retireRecord_of_not_running (not_running_of_refused hstep)).symm.trans h
  | fault f => cases (retireRecord_of_fault hstep).symm.trans h
  | next t =>
    obtain ⟨hrun, ⟨hbound, -⟩ | ⟨hbound, w, i, hfetch, hexec⟩⟩ := step_next_cases hstep
    · cases (retireRecord_of_boundExhausted hbound).symm.trans h
    · obtain ⟨hw, hdecode⟩ := decode_of_fetched hfetch
      cases (retireRecord_of_exec ⟨hrun, (not_boundExhausted_iff s).mp hbound⟩ hfetch hexec).symm.trans h
      exact ⟨t, rfl, hw, hdecode, hexec, rfl, rfl⟩

end

end Sys2Proof.Machine
end

section
/-! The statements about the step (10_state.md section 7, 60_exceptions.md sections 1 and 2). -/

namespace Sys2Proof.Machine

open Sys2Proof.Spec

/-- Settles O31: fetch and decode answer the instruction, and the step is its execution. -/
theorem stepExecutesTheDecodedInstruction : Obligations.StepExecutesTheDecodedInstruction := by
  unfold Obligations.StepExecutesTheDecodedInstruction
  exact fun _ _ hsteps hpc hdecode => step_of_decode_ok hsteps hpc hdecode

/-- Settles O32: by what the word at the pc decodes to. -/
theorem illegalWordFaultsAndCommitsNothing : Obligations.IllegalWordFaultsAndCommitsNothing := by
  unfold Obligations.IllegalWordFaultsAndCommitsNothing
  intro s hsteps hpc
  cases hdecode : decode (word s s.pc) with
  | ok i => exact .inl ⟨i, rfl, step_of_decode_ok hsteps hpc hdecode⟩
  | error r =>
    have hstep := step_of_decode_error hsteps hpc hdecode
    rw [advance_of_fault hstep]
    exact .inr ⟨hstep, rfl, fun _ => rfl, fun _ => rfl, rfl, rfl, retireRecord_of_fault hstep⟩

/-- Settles O33: the checked read of the fetch. -/
theorem fetchAcrossTheTopFaults : Obligations.FetchAcrossTheTopFaults := by
  unfold Obligations.FetchAcrossTheTopFaults
  intro s hsteps hpc
  exact step_of_fetch_error hsteps (fetchInstr_of_wraps ((fits_eq_false_iff s.pc .word).mpr hpc))

/-- Settles O34: the bound is asked before the fetch, and reaching it sets the run state alone. -/
theorem exhaustedBoundStopsBeforeTheFetch : Obligations.ExhaustedBoundStopsBeforeTheFetch := by
  unfold Obligations.ExhaustedBoundStopsBeforeTheFetch
  intro s hrun hfuel
  have hbound := (boundExhausted_iff s).mpr hfuel
  exact ⟨s.enterBound, step_of_boundExhausted hrun hbound, rfl, fun _ => rfl, fun _ => rfl, rfl, rfl, rfl,
    retireRecord_of_boundExhausted hbound⟩

/-- A state that is not Running is the same after any number of steps. -/
theorem runFor_of_not_running {s : State} (hrun : s.run ≠ .running) (n : Nat) : runFor n s = s := by
  induction n with
  | zero => rfl
  | succ n ih => rw [runFor, advance_of_not_running hrun, ih]

/-- Settles O35: no step, and by induction no number of them. -/
theorem terminalStatesAreNeverLeft : Obligations.TerminalStatesAreNeverLeft := by
  unfold Obligations.TerminalStatesAreNeverLeft
  exact fun _ hrun => ⟨step_of_not_running hrun, runFor_of_not_running hrun⟩

/-- Settles O36: of the effects of the instructions, EBREAK's alone halts. -/
theorem onlyEbreakHaltsTheRun : Obligations.OnlyEbreakHaltsTheRun := by
  unfold Obligations.OnlyEbreakHaltsTheRun
  intro s t hstep hhalted
  obtain ⟨hrun, ⟨-, rfl⟩ | ⟨-, w, i, hfetch, hexec⟩⟩ := step_next_cases hstep
  · cases hhalted
  · obtain ⟨e, rfl, -, hhalt, -⟩ := exec_next_cases hexec
    obtain ⟨rfl, hdecode⟩ := decode_of_fetched hfetch
    have he : e.halt = true := by
      by_contra hnot
      rw [commit_run, if_neg hnot, hrun] at hhalted
      cases hhalted
    obtain ⟨rd, rs1, rfl⟩ := hhalt.mp he
    exact ⟨rd, rs1, hdecode⟩

/-- The faults of a step: DecodeError of the fetched word, or AccessWrap, each at the pc. -/
theorem step_fault_kind {s : State} {f : Fault} (h : step s = .fault f) :
    f = .decodeError s.pc (word s s.pc) ∨ ∃ a n, f = .accessWrap s.pc a n := by
  obtain ⟨-, -, hfetch | ⟨w, i, -, hexec⟩⟩ := step_fault_cases h
  · obtain ⟨i, hok, -⟩ | ⟨hwrap, -⟩ | ⟨r, hdecode, -⟩ := fetchInstr_cases s
    · cases hok.symm.trans hfetch
    · cases hwrap.symm.trans hfetch
      exact .inr ⟨_, _, rfl⟩
    · cases hdecode.symm.trans hfetch
      rw [load_eq_word]
      exact .inl rfl
  · obtain ⟨a, w, -, -, rfl⟩ := exec_fault_cases hexec
    exact .inr ⟨_, _, rfl⟩

/-- Settles O37: the kinds of a step's fault, and that Faulted changes the run state alone. -/
theorem fatalErrorsArePrecise : Obligations.FatalErrorsArePrecise := by
  unfold Obligations.FatalErrorsArePrecise
  intro s f hstep
  rw [advance_of_fault hstep]
  exact ⟨step_fault_kind hstep, rfl, fun _ => rfl, rfl, rfl, rfl, rfl⟩

/-- Settles O38: SW goes to the next instruction, whose word is the one it stored there. -/
theorem nextFetchSeesTheStoredWord : Obligations.NextFetchSeesTheStoredWord := by
  unfold Obligations.NextFetchSeesTheStoredWord
  intro s t rs1 rs2 imm i hsteps hpc haddr hbound hdecode hexec
  obtain rfl := exec_sw_next hexec
  rw [haddr]
  refine step_of_decode_ok ⟨?_, ?_⟩ hpc ?_
  · exact hsteps.1
  · rw [commit_fuel, commit_retired]
    exact hbound
  · rw [← load_eq_word, commit_mem_some s _ rfl, commit_pc, State.nextPc, load_store_word]
    exact hdecode

end Sys2Proof.Machine
end

section
/-! The statements about the retire record (60_exceptions.md section 3). -/

namespace Sys2Proof.Machine

open Sys2Proof.Spec

/-- An executed instruction counts one more (R37). -/
theorem retired_of_exec {i : Instr} {s t : State} (h : exec i s = .next t) : t.retired = s.retired + 1 := by
  obtain ⟨e, rfl, -⟩ := exec_next_cases h
  exact commit_retired s e

/-! ## The register fields of each format (30_encoding.md R80 to R85), and what they put into the record -/

section
variable {i : Instr}

theorem regs_of_format_R (h : i.format = .R) :
    ∃ rd rs1 rs2, i.destReg = some rd ∧ i.srcReg1 = some rs1 ∧ i.srcReg2 = some rs2 := by
  cases i <;> cases h
  all_goals exact ⟨_, _, _, rfl, rfl, rfl⟩

theorem regs_of_format_S_or_B (h : i.format = .S ∨ i.format = .B) :
    ∃ rs1 rs2, i.destReg = none ∧ i.srcReg1 = some rs1 ∧ i.srcReg2 = some rs2 := by
  cases i
  case sb | sh | sw | beq | bne | blt | bge | bltu | bgeu => exact ⟨_, _, rfl, rfl, rfl⟩
  all_goals simp [Instr.format] at h

theorem regs_of_format_U_or_J (h : i.format = .U ∨ i.format = .J) :
    ∃ rd, i.destReg = some rd ∧ i.srcReg1 = none ∧ i.srcReg2 = none := by
  cases i
  case lui | auipc | jal => exact ⟨_, rfl, rfl, rfl⟩
  all_goals simp [Instr.format] at h

/-- An I-format instruction reads rs1 and writes rd, but for FENCE, ECALL and EBREAK, whose fields are ignored (R94). -/
theorem regs_of_format_I (h : i.format = .I) :
    i.srcReg2 = none ∧ ((i.destReg = none ∧ i.srcReg1 = none) ∨ ∃ rd rs1, i.destReg = some rd ∧ i.srcReg1 = some rs1) := by
  cases i <;> cases h
  case fence | ecall | ebreak => exact ⟨rfl, .inl ⟨rfl, rfl⟩⟩
  all_goals exact ⟨rfl, .inr ⟨_, _, rfl, rfl⟩⟩

end

/-- Settles O50: the record is of the executed instruction, and its registers are those its format holds. -/
theorem retireRecordDescribesTheStep : Obligations.RetireRecordDescribesTheStep := by
  unfold Obligations.RetireRecordDescribesTheStep
  intro s r hrecord
  obtain ⟨t, hstep, hinst, hdecode, hexec, hpc, htouched⟩ := retireRecord_some_cases hrecord
  refine ⟨t, hstep, retired_of_exec hexec, hpc, hinst, hdecode, fun hR => ?_, fun hSB => ?_, fun hUJ => ?_, fun hI => ?_⟩
  · obtain ⟨rd, rs1, rs2, hd, h1, h2⟩ := regs_of_format_R hR
    exact ⟨rd, rs1, rs2, hd, h1, h2, by simp [htouched, touchedRegs, hd, h1, h2]⟩
  · obtain ⟨rs1, rs2, hd, h1, h2⟩ := regs_of_format_S_or_B hSB
    exact ⟨rs1, rs2, h1, h2, by simp [htouched, touchedRegs, hd, h1, h2]⟩
  · obtain ⟨rd, hd, h1, h2⟩ := regs_of_format_U_or_J hUJ
    exact ⟨rd, hd, by simp [htouched, touchedRegs, hd, h1, h2]⟩
  · obtain ⟨h2, ⟨hd, h1⟩ | ⟨rd, rs1, hd, h1⟩⟩ := regs_of_format_I hI
    · exact .inl ⟨by simp [htouched, touchedRegs, hd, h1, h2], hd⟩
    · exact .inr ⟨rd, rs1, hd, h1, by simp [htouched, touchedRegs, hd, h1, h2]⟩

/-- A step emits a record exactly when it counts an instruction. -/
theorem record_length_add_retired (s : State) : (retireRecord s).toList.length + s.retired = (advance s).retired := by
  cases hstep : step s with
  | refused q =>
    have hrun := not_running_of_refused hstep
    rw [retireRecord_of_not_running hrun, advance_of_not_running hrun]
    exact Nat.zero_add _
  | fault f =>
    rw [retireRecord_of_fault hstep, advance_of_fault hstep]
    exact Nat.zero_add _
  | next t =>
    rw [advance_of_next hstep]
    obtain ⟨hrun, ⟨hbound, rfl⟩ | ⟨hbound, w, i, hfetch, hexec⟩⟩ := step_next_cases hstep
    · rw [retireRecord_of_boundExhausted hbound]
      exact Nat.zero_add _
    · rw [retireRecord_of_exec ⟨hrun, (not_boundExhausted_iff s).mp hbound⟩ hfetch hexec, retired_of_exec hexec]
      exact Nat.add_comm _ _

/-- Settles O51: by induction on the number of steps, one step at a time. -/
theorem oneRecordForEachRetiredInstruction : Obligations.OneRecordForEachRetiredInstruction := by
  unfold Obligations.OneRecordForEachRetiredInstruction
  intro n
  induction n with
  | zero => exact fun s => Nat.zero_add _
  | succ n ih =>
    intro s
    have hone := record_length_add_retired s
    have hrest := ih (advance s)
    rw [runRecords, runFor, List.length_append]
    omega

end Sys2Proof.Machine
end

section
/-! AUIPC and the jumps (40_upper_immediate.md, 41_control_transfer.md). -/

namespace Sys2Proof.Machine

open Sys2Proof.Spec

section
variable (rd rs1 : RegIdx) (imm : Word) (s : State)

theorem exec_auipc : exec (.auipc rd imm) s = s.retireReg rd (s.pc + imm) := rfl
theorem exec_jal : exec (.jal rd imm) s = s.retireLink rd (s.pc + imm) := rfl
theorem exec_jalr : exec (.jalr rd rs1 imm) s = s.retireLink rd (s.readReg rs1 + imm) := rfl

end

/-- An instruction that retires with the link gives `pc + 4` and goes to its target. -/
theorem gives_of_exec_eq_retireLink {i : Instr} {s : State} {rd : RegIdx} {target : Word}
    (h : exec i s = s.retireLink rd target) : Gives i s rd (s.pc + 4) target :=
  gives_of_exec_eq h

/-- R68: the wrap of an address is the sum modulo 2^32. -/
theorem add_eq_ofNat_mod (a b : Word) : a + b = BitVec.ofNat 32 ((a.toNat + b.toNat) % 4294967296) := by
  apply BitVec.eq_of_toNat_eq
  rw [BitVec.toNat_add, BitVec.toNat_ofNat, Nat.mod_mod]

/-- Settles O3: the entry of TOP, and the wrapped sum as the register write. -/
theorem auipcAddsTheUpperImmediateToThePc : Obligations.AuipcAddsTheUpperImmediateToThePc := by
  unfold Obligations.AuipcAddsTheUpperImmediateToThePc
  refine ⟨decodesU_auipc, fun rd imm s => ?_⟩
  rw [← add_eq_ofNat_mod]
  exact gives_of_exec_eq_retireReg (exec_auipc rd imm s)

/-- Settles O4: the entry of TOP, and the link with the pc-relative target. -/
theorem jalLinksAndJumps : Obligations.JalLinksAndJumps := by
  unfold Obligations.JalLinksAndJumps
  exact ⟨fun _ hop => decode_of_opcode_jal hop, fun rd imm s => gives_of_exec_eq_retireLink (exec_jal rd imm s)⟩

/-- Settles O5: the entry of TOP, and the link with the target read from the state before. -/
theorem jalrLinksAndJumpsToTheOldRegister : Obligations.JalrLinksAndJumpsToTheOldRegister := by
  unfold Obligations.JalrLinksAndJumpsToTheOldRegister
  exact ⟨decodesI_jalr, fun rd rs1 imm s => gives_of_exec_eq_retireLink (exec_jalr rd rs1 imm s)⟩

end Sys2Proof.Machine
end

section
/-! The loads and stores (42_load_store.md). -/

namespace Sys2Proof.Machine

open Sys2Proof.Spec

/-! ## The extensions of the bytes read (00_scope.md R14) -/

theorem sext8_setWidth (b : Byte) : sext8 (b.setWidth 32) = b.signExtend 32 := by simp [sext8]
theorem zext8_setWidth (b : Byte) : zext8 (b.setWidth 32) = b.setWidth 32 := by simp [zext8]
theorem sext16_setWidth (h : BitVec 16) : sext16 (h.setWidth 32) = h.signExtend 32 := by simp [sext16]
theorem zext16_setWidth (h : BitVec 16) : zext16 (h.setWidth 32) = h.setWidth 32 := by simp [zext16]

/-! ## The one argument of the loads, and the one of the stores -/

/-- A load whose bytes fit gives the extended value and goes to the default next pc. -/
theorem gives_of_exec_eq_retireLoad {i : Instr} {s : State} {rd : RegIdx} {a v : Word} {w : Width} {ext : Word → Word}
    (h : exec i s = s.retireLoad rd a w ext) (hfits : fits a w = true) (hvalue : ext (s.mem.load a w) = v) :
    Gives i s rd v (s.pc + 4) :=
  gives_of_exec_eq_retireReg (hvalue ▸ h.trans (retireLoad_of_fits s rd ext hfits))

/-- A store whose bytes fit writes them, low byte first, and nothing else. -/
theorem stores_of_exec_eq_retireStore {i : Instr} {s : State} {a v : Word} {w : Width}
    (h : exec i s = s.retireStore a w v) (hfits : fits a w = true) : Stores i s a w.bytes v := by
  refine ⟨_, h.trans (retireStore_of_fits s v hfits), sameRegs_commit s rfl, retiresTo_commit s rfl, fun k hk => ?inside,
    fun x hx => ?outside⟩
  case inside =>
    have hin : a.toNat ≤ a.toNat + k ∧ a.toNat + k < a.toNat + w.bytes := by omega
    rw [State.readByte, commit_mem_some s _ rfl, byte_store, if_pos hin, Nat.add_sub_cancel_left]
    apply BitVec.eq_of_toNat_eq
    simp
  case outside =>
    have hnot : ¬ (a.toNat ≤ x ∧ x < a.toNat + w.bytes) := by omega
    rw [State.readByte, commit_mem_some s _ rfl, byte_store, if_neg hnot, State.readByte]

/-! ## The rules -/

/-- Settles O7: a byte access always fits. -/
theorem byteLoadsExtendTheByte : Obligations.ByteLoadsExtendTheByte := by
  unfold Obligations.ByteLoadsExtendTheByte
  refine ⟨decodesI_lb, decodesI_lbu, fun rd rs1 imm s => ⟨?lb, ?lbu⟩⟩
  case lb => exact gives_of_exec_eq_retireLoad (exec_lb ..) (fits_byte _) (by rw [load_eq_byte, sext8_setWidth])
  case lbu => exact gives_of_exec_eq_retireLoad (exec_lbu ..) (fits_byte _) (by rw [load_eq_byte, zext8_setWidth])

/-- Settles O8: the halfword where its bytes fit, AccessWrap where they do not. -/
theorem halfwordLoadsExtendTheHalfword : Obligations.HalfwordLoadsExtendTheHalfword := by
  unfold Obligations.HalfwordLoadsExtendTheHalfword
  refine ⟨decodesI_lh, decodesI_lhu, fun rd rs1 imm s => ⟨fun hle => ⟨?lh, ?lhu⟩, fun hlt => ⟨?lhFault, ?lhuFault⟩⟩⟩
  case lh => exact gives_of_exec_eq_retireLoad (exec_lh ..) (fits_of_le hle) (by rw [load_eq_half, sext16_setWidth])
  case lhu => exact gives_of_exec_eq_retireLoad (exec_lhu ..) (fits_of_le hle) (by rw [load_eq_half, zext16_setWidth])
  case lhFault => exact exec_of_dataAccess_wraps rfl ((fits_eq_false_iff _ .half).mpr hlt)
  case lhuFault => exact exec_of_dataAccess_wraps rfl ((fits_eq_false_iff _ .half).mpr hlt)

/-- Settles O9: the word where its bytes fit, AccessWrap where they do not. -/
theorem wordLoadsReadFourBytes : Obligations.WordLoadsReadFourBytes := by
  unfold Obligations.WordLoadsReadFourBytes
  refine ⟨decodesI_lw, fun rd rs1 imm s => ⟨fun hle => ?lw, fun hlt => ?fault⟩⟩
  case lw => exact gives_of_exec_eq_retireLoad (exec_lw ..) (fits_of_le hle) (load_eq_word ..)
  case fault => exact exec_of_dataAccess_wraps rfl ((fits_eq_false_iff _ .word).mpr hlt)

/-- Settles O10: a byte access always fits. -/
theorem storeByteChangesOneByte : Obligations.StoreByteChangesOneByte := by
  unfold Obligations.StoreByteChangesOneByte
  exact ⟨decodesS_sb, fun rs1 rs2 imm s => stores_of_exec_eq_retireStore (exec_sb rs1 rs2 imm s) (fits_byte _)⟩

/-- Settles O11: the bytes stored where they fit, AccessWrap where they do not. -/
theorem halfwordAndWordStores : Obligations.HalfwordAndWordStores := by
  unfold Obligations.HalfwordAndWordStores
  refine ⟨decodesS_sh, decodesS_sw, fun rs1 rs2 imm s => ⟨fun hle => ?sh, fun hlt => ?shFault, fun hle => ?sw, fun hlt => ?swFault⟩⟩
  case sh => exact stores_of_exec_eq_retireStore (exec_sh rs1 rs2 imm s) (fits_of_le hle)
  case shFault => exact exec_of_dataAccess_wraps rfl ((fits_eq_false_iff _ .half).mpr hlt)
  case sw => exact stores_of_exec_eq_retireStore (exec_sw rs1 rs2 imm s) (fits_of_le hle)
  case swFault => exact exec_of_dataAccess_wraps rfl ((fits_eq_false_iff _ .word).mpr hlt)

end Sys2Proof.Machine
end

section
/-! SLLI (43_integer_alu.md R128). -/

namespace Sys2Proof.Machine

open Sys2Proof.Spec

theorem exec_slli (rd rs1 : RegIdx) (shamt : BitVec 5) (s : State) :
    exec (.slli rd rs1 shamt) s = s.retireReg rd (s.readReg rs1 <<< shamt.toNat) := rfl

/-- R91 (c): SLLI has one funct7. -/
theorem decodeOpImm_slli_error {w : Word} (hf3 : funct3Of w = 0b001#3) (hf7 : funct7Of w ≠ 0b0000000#7) :
    decodeOpImm w = .error .funct7 := by
  simp [decodeOpImm, hf3, hf7]

/-- Settles O15: the shift as a product with a power of two, and the funct7 table's one entry. -/
theorem leftShiftImmediate : Obligations.LeftShiftImmediate := by
  unfold Obligations.LeftShiftImmediate
  refine ⟨shiftRule_of_exec_eq shiftLeft_eq_ofNat decodesShift_slli exec_slli, fun w hop hf3 hf7 => ⟨.funct7, ?_⟩⟩
  exact (decode_of_opcode_opImm hop).trans (decodeOpImm_slli_error hf3 hf7)

end Sys2Proof.Machine
end

section
/-! Division (44_multiply_divide.md R145 to R148). -/

namespace Sys2Proof.Machine

open Sys2Proof.Spec

/-- R145: the overflow operands. -/
theorem divOverflows_iff (a b : Word) : divOverflows a b = true ↔ a = 0x80000000 ∧ b = 0xFFFFFFFF := by
  rw [divOverflows, Bool.and_eq_true, beq_iff_eq, beq_iff_eq]

theorem divSigned_eq (a b : Word) : divSigned a b =
    if b = 0 then 0xFFFFFFFF
    else if a = 0x80000000 ∧ b = 0xFFFFFFFF then 0x80000000 else BitVec.ofInt 32 (a.toInt.tdiv b.toInt) := by
  simp only [divSigned, divOverflows_iff]

/-- R147: what the truncated quotient leaves of the dividend is the truncated remainder. -/
theorem remSigned_eq (a b : Word) : remSigned a b =
    if b = 0 then a
    else if a = 0x80000000 ∧ b = 0xFFFFFFFF then 0 else BitVec.ofInt 32 (a.toInt.tmod b.toInt) := by
  simp only [remSigned, divOverflows_iff, Int.tmod_def]

section
variable (rd rs1 rs2 : RegIdx) (s : State)

theorem exec_div : exec (.div rd rs1 rs2) s = s.retireReg rd (divSigned (s.readReg rs1) (s.readReg rs2)) := rfl
theorem exec_divu : exec (.divu rd rs1 rs2) s = s.retireReg rd (divUnsigned (s.readReg rs1) (s.readReg rs2)) := rfl
theorem exec_rem : exec (.rem rd rs1 rs2) s = s.retireReg rd (remSigned (s.readReg rs1) (s.readReg rs2)) := rfl
theorem exec_remu : exec (.remu rd rs1 rs2) s = s.retireReg rd (remUnsigned (s.readReg rs1) (s.readReg rs2)) := rfl

end

/-- Settles O21: each instruction's words, and its quotient or remainder as the register write. -/
theorem divisionTruncatesTowardZero : Obligations.DivisionTruncatesTowardZero := by
  unfold Obligations.DivisionTruncatesTowardZero
  refine ⟨?div, ?divu, ?rem, ?remu⟩
  case div => exact regRule_of_exec_eq divSigned_eq decodesR_div exec_div
  case divu => exact regRule_of_exec_eq (fun _ _ => rfl) decodesR_divu exec_divu
  case rem => exact regRule_of_exec_eq remSigned_eq decodesR_rem exec_rem
  case remu => exact regRule_of_exec_eq (fun _ _ => rfl) decodesR_remu exec_remu

end Sys2Proof.Machine
end

section
/-! FENCE, ECALL and EBREAK (45_system.md). -/

namespace Sys2Proof.Machine

open Sys2Proof.Spec

section
variable (rd rs1 : RegIdx) (imm : Word) (s : State)

theorem exec_fence : exec (.fence rd rs1 imm) s = s.retirePc (s.pc + 4) := rfl
theorem exec_ecall : exec (.ecall rd rs1) s = s.retirePc (s.pc + 4) := rfl
theorem exec_ebreak : exec (.ebreak rd rs1) s = .next (s.commit { npc := s.pc + 4, halt := true }) := rfl

end

/-- Settles O23: the SYSTEM words with immediate 0, and a retirement with the default next pc alone. -/
theorem ecallChangesOnlyPcAndCount : Obligations.EcallChangesOnlyPcAndCount := by
  unfold Obligations.EcallChangesOnlyPcAndCount
  exact ⟨fun _ hop hf3 himm => decode_of_ecall_fields hop hf3 himm,
    fun rd rs1 s => goesTo_of_exec_eq_retirePc (exec_ecall rd rs1 s)⟩

/-- Settles O24: the words of the opcode by their funct3, and a retirement with the default next pc alone. -/
theorem fenceChangesOnlyPcAndCount : Obligations.FenceChangesOnlyPcAndCount := by
  unfold Obligations.FenceChangesOnlyPcAndCount
  refine ⟨decodesI_fence, fun w hop hf3 => ⟨.funct3, ?_⟩, fun rd rs1 imm s => goesTo_of_exec_eq_retirePc (exec_fence rd rs1 imm s)⟩
  exact (decode_of_opcode_fence hop).trans (if_neg hf3)

/-- Settles O25: the SYSTEM words with immediate 1, the commit that halts, and no step after it. -/
theorem ebreakRetiresAndHalts : Obligations.EbreakRetiresAndHalts := by
  unfold Obligations.EbreakRetiresAndHalts
  refine ⟨fun _ hop hf3 himm => decode_of_ebreak_fields hop hf3 himm, fun rd rs1 s => ⟨_, exec_ebreak rd rs1 s, ?_⟩⟩
  refine ⟨sameRegs_commit s rfl, sameMem_commit s rfl, rfl, commit_retired s _, commit_run s _, commit_fuel s _, ?noStep, ?fetched⟩
  case noStep =>
    intro u hstep
    obtain ⟨hrun, -⟩ := step_next_cases hstep
    cases (commit_run s _).symm.trans hrun
  case fetched =>
    intro hsteps hpc hdecode
    have hfetch := fetchInstr_of_decode_ok (fits_of_le hpc) hdecode
    exact ⟨step_of_fetched hsteps hfetch, _, retireRecord_of_exec hsteps hfetch (exec_ebreak rd rs1 s), rfl, rfl⟩

end Sys2Proof.Machine
end

section
/-! Written-out words, and reset. -/

namespace Sys2Proof.Machine

/-- Settles O47: each of the ten closed words, decoded. -/
theorem writtenOutWordsDecode : Obligations.WrittenOutWordsDecode := by
  unfold Obligations.WrittenOutWordsDecode
  decide

/-- Settles O53: the empty memory is canonical, and a Running state below no bound asks nothing more of the invariant. -/
theorem resetMeetsTheInvariant : Obligations.ResetMeetsTheInvariant := by
  unfold Obligations.ResetMeetsTheInvariant
  refine ⟨⟨wf_nil, ?bound, ?boundReached, ?halted⟩, rfl, rfl, byte_nil⟩
  case bound => exact fun _ h => nomatch h
  case boundReached => exact fun h => nomatch h
  case halted => exact fun h => nomatch h

end Sys2Proof.Machine
end

section
/-! The laws of multiplication and division (44_multiply_divide.md section 3). -/

namespace Sys2Proof.Machine

open Sys2Proof.Spec

/-- The value that an instruction with one register write leaves in its destination. -/
theorem readReg_of_exec_retireReg {i : Instr} {s t : State} {rd : RegIdx} {v : Word} (h : exec i s = s.retireReg rd v)
    (hnext : exec i s = .next t) (hrd : rd ≠ 0) : t.readReg rd = v := by
  cases h.symm.trans hnext
  exact (onlyReg_commit s rd v _).2.1 hrd

/-! ## The two halves of a product -/

/-- The high and the low half of an integer, joined, are its low 64 bits. -/
theorem highHalf_append_ofInt (p : Int) : (highHalf p ++ BitVec.ofInt 32 p : BitVec 64) = BitVec.ofInt 64 p := by
  apply BitVec.eq_of_toNat_eq
  rw [BitVec.toNat_append, ← Nat.shiftLeft_add_eq_or_of_lt (BitVec.ofInt 32 p).isLt, Nat.shiftLeft_eq, highHalf,
    BitVec.toNat_ofInt, BitVec.toNat_ofInt, BitVec.toNat_ofInt]
  omega

/-- The low half of a product does not depend on the signs its operands are read with. -/
theorem mulLow_eq_ofInt_mixed (a b : Word) : mulLow a b = BitVec.ofInt 32 (a.toInt * (b.toNat : Int)) := by
  rw [mulLow, BitVec.ofInt_mul, BitVec.ofInt_mul, BitVec.ofInt_toInt, BitVec.ofInt_toInt, ofInt_toNat]

theorem mulLow_eq_ofInt_unsigned (a b : Word) : mulLow a b = BitVec.ofInt 32 ((a.toNat : Int) * (b.toNat : Int)) := by
  rw [mulLow_eq_ofInt_mixed, BitVec.ofInt_mul, BitVec.ofInt_mul, BitVec.ofInt_toInt, ofInt_toNat, ofInt_toNat]

/-- Settles O20: the three high halves are of exact products that share MUL's low half. -/
theorem multiplyHalvesMakeTheProduct : Obligations.MultiplyHalvesMakeTheProduct := by
  unfold Obligations.MultiplyHalvesMakeTheProduct
  intro s tl th tsu tu rd rs1 rs2 hrd hmul hmulh hmulhsu hmulhu
  rw [readReg_of_exec_retireReg (exec_mul ..) hmul hrd, readReg_of_exec_retireReg (exec_mulh ..) hmulh hrd,
    readReg_of_exec_retireReg (exec_mulhsu ..) hmulhsu hrd, readReg_of_exec_retireReg (exec_mulhu ..) hmulhu hrd]
  refine ⟨?signed, ?mixed, ?unsigned⟩
  case signed => exact highHalf_append_ofInt _
  case mixed =>
    rw [mulLow_eq_ofInt_mixed]
    exact highHalf_append_ofInt _
  case unsigned =>
    rw [mulLow_eq_ofInt_unsigned, ← BitVec.ofInt_natCast, Int.natCast_mul]
    exact highHalf_append_ofInt _

/-! ## Quotient and remainder -/

section
variable {a b : Word} (hb : b ≠ 0)
include hb

/-- Outside the overflow operands the signed quotient is in range, so it is stored exactly. -/
theorem toInt_divSigned (hno : ¬ (a = 0x80000000 ∧ b = 0xFFFFFFFF)) : (divSigned a b).toInt = a.toInt.tdiv b.toInt := by
  have hno' : a ≠ BitVec.intMin 32 ∨ b ≠ -1#32 := by
    by_contra hboth
    push Not at hboth
    exact hno hboth
  rw [divSigned_eq, if_neg hb, if_neg hno, ← BitVec.toInt_sdiv_of_ne_or_ne a b hno', BitVec.ofInt_toInt]

theorem toInt_remSigned (hno : ¬ (a = 0x80000000 ∧ b = 0xFFFFFFFF)) : (remSigned a b).toInt = a.toInt.tmod b.toInt := by
  rw [remSigned_eq, if_neg hb, if_neg hno, ← BitVec.toInt_srem, BitVec.ofInt_toInt]

theorem toNat_divUnsigned : (divUnsigned a b).toNat = a.toNat / b.toNat := by
  rw [divUnsigned, if_neg hb, ← BitVec.toNat_udiv, BitVec.ofNat_toNat, BitVec.setWidth_eq]

theorem toNat_remUnsigned : (remUnsigned a b).toNat = a.toNat % b.toNat := by
  rw [remUnsigned, if_neg hb, ← BitVec.toNat_umod, BitVec.ofNat_toNat, BitVec.setWidth_eq]

end

/-- A nonzero remainder of the truncating division has the dividend's sign. -/
theorem tmod_eq_zero_or_sign (a b : Int) : a.tmod b = 0 ∨ (a.tmod b).sign = a.sign := by
  rw [Int.sign_tmod]
  split
  · next hdvd => exact .inl (Int.tmod_eq_zero_of_dvd hdvd)
  · exact .inr rfl

/-- Settles O22: quotient and remainder are stored exactly, so the laws of integer division hold of them. -/
theorem quotientAndRemainderRecompose : Obligations.QuotientAndRemainderRecompose := by
  unfold Obligations.QuotientAndRemainderRecompose
  intro s tq tr uq ur rd rs1 rs2 hrd hb hdiv hrem hdivu hremu
  have hbNat : 0 < (s.readReg rs2).toNat := Nat.pos_of_ne_zero fun h0 => hb (BitVec.eq_of_toNat_eq h0)
  have hbInt : 0 < (s.readReg rs2).toInt.natAbs :=
    Int.natAbs_pos.mpr fun h0 => hb (BitVec.eq_of_toInt_eq h0)
  rw [readReg_of_exec_retireReg (exec_div ..) hdiv hrd, readReg_of_exec_retireReg (exec_rem ..) hrem hrd,
    readReg_of_exec_retireReg (exec_divu ..) hdivu hrd, readReg_of_exec_retireReg (exec_remu ..) hremu hrd]
  refine ⟨fun hno => ?signed, ?unsigned⟩
  case signed =>
    rw [toInt_divSigned hb hno, toInt_remSigned hb hno]
    refine ⟨(Int.tdiv_mul_add_tmod _ _).symm, ?_, tmod_eq_zero_or_sign _ _⟩
    rw [Int.natAbs_tmod]
    exact Nat.mod_lt _ hbInt
  case unsigned =>
    rw [toNat_divUnsigned hb, toNat_remUnsigned hb]
    exact ⟨(Nat.div_add_mod' _ _).symm, Nat.mod_lt _ hbNat⟩

end Sys2Proof.Machine
end

section
/-! The illegal words (30_encoding.md R91): where each table of the decoder has no entry, and what the cases (a) to (d) say of an opcode. -/

namespace Sys2Proof.Machine

open Sys2Proof.Spec

section
variable {w : Word}

/-! ## The decoder's tables -/

theorem decodeBranch_error_iff :
    (∃ r, decodeBranch w = .error r) ↔ funct3Of w ∉ [0b000#3, 0b001#3, 0b100#3, 0b101#3, 0b110#3, 0b111#3] := by
  unfold decodeBranch
  split_ifs <;> simp [*]

theorem decodeLoad_error_iff : (∃ r, decodeLoad w = .error r) ↔ funct3Of w ∉ [0b000#3, 0b001#3, 0b010#3, 0b100#3, 0b101#3] := by
  unfold decodeLoad
  split_ifs <;> simp [*]

theorem decodeStore_error_iff : (∃ r, decodeStore w = .error r) ↔ funct3Of w ∉ [0b000#3, 0b001#3, 0b010#3] := by
  unfold decodeStore
  split_ifs <;> simp [*]

/-- Only the shift entries of the table of opcode 0010011 look at funct7. -/
theorem decodeOpImm_error_iff : (∃ r, decodeOpImm w = .error r) ↔
    (funct3Of w = 0b001#3 ∧ funct7Of w ≠ 0b0000000#7) ∨
    (funct3Of w = 0b101#3 ∧ funct7Of w ≠ 0b0000000#7 ∧ funct7Of w ≠ 0b0100000#7) := by
  unfold decodeOpImm
  split_ifs with h0 h2 h3 h4 h6 h7 h1 hslli hsrli hsrai
  iterate 6 · simp [*] -- an entry that holds an immediate
  · simp [h1, hslli]
  · simp [h1, hslli]
  all_goals
    have h5 := funct3_eq_101 _ h0 h2 h3 h4 h6 h7 h1
  · simp [h5, hsrli]
  · simp [h5, hsrai]
  · simp [h5, hsrli, hsrai]

/-- The columns funct7 = 0000000 and 0000001 of opcode 0110011 are full. -/
theorem decodeOpBase_ne_error (r : DecodeReject) : decodeOpBase w ≠ .error r := by
  unfold decodeOpBase
  split_ifs <;> simp

theorem decodeOpMul_ne_error (r : DecodeReject) : decodeOpMul w ≠ .error r := by
  unfold decodeOpMul
  split_ifs <;> simp

theorem decodeOpAlt_error_iff : (∃ r, decodeOpAlt w = .error r) ↔ funct3Of w ≠ 0b000#3 ∧ funct3Of w ≠ 0b101#3 := by
  unfold decodeOpAlt
  split_ifs <;> simp [*]

theorem decodeOp_error_iff : (∃ r, decodeOp w = .error r) ↔
    funct7Of w ≠ 0b0000000#7 ∧ (funct7Of w = 0b0100000#7 → funct3Of w ≠ 0b000#3 ∧ funct3Of w ≠ 0b101#3) ∧
      funct7Of w ≠ 0b0000001#7 := by
  unfold decodeOp
  split_ifs with hbase halt hmul
  · simp [decodeOpBase_ne_error, hbase]
  · simp [decodeOpAlt_error_iff, halt]
  · simp [decodeOpMul_ne_error, hmul]
  · simp [*]

theorem decodeSystem_error_iff : (∃ r, decodeSystem w = .error r) ↔
    funct3Of w ≠ 0b000#3 ∨ (funct12Of w ≠ 0#12 ∧ funct12Of w ≠ 1#12) := by
  unfold decodeSystem
  split_ifs <;> simp [*]

/-! ## The cases of R91 -/

/-- The cases (a) to (d), over the fields' names. -/
theorem illegal_iff : Illegal w ↔
    opcodeOf w ∉ topOpcodes ∨ (∃ t, funct3Table (opcodeOf w) = some t ∧ funct3Of w ∉ t) ∨
    (∃ t, funct7Table (opcodeOf w) (funct3Of w) = some t ∧ funct7Of w ∉ t) ∨
    (opcodeOf w = 0b1110011#7 ∧ (funct3Of w ≠ 0b000#3 ∨ (funct12Of w ≠ 0#12 ∧ funct12Of w ≠ 1#12))) := Iff.rfl

/-- The funct3 tables of opcodes 0010011 and 0110011 are full. -/
theorem funct3Table_full {op : BitVec 7} (hop : op = 0b0010011#7 ∨ op = 0b0110011#7) (f : BitVec 3) :
    ¬ ∃ t, funct3Table op = some t ∧ f ∉ t := by
  rintro ⟨t, ht, hf⟩
  obtain rfl | rfl := hop
  all_goals
    cases ht
    simp only [List.mem_cons, List.not_mem_nil, or_false, not_or] at hf
    bv_omega

theorem illegal_iff_of_opImm (hop : opcodeOf w = 0b0010011#7) : Illegal w ↔
    (funct3Of w = 0b001#3 ∧ funct7Of w ≠ 0b0000000#7) ∨
    (funct3Of w = 0b101#3 ∧ funct7Of w ≠ 0b0000000#7 ∧ funct7Of w ≠ 0b0100000#7) := by
  rw [illegal_iff, hop]
  by_cases h1 : funct3Of w = 0b001#3
  · simp [funct3Table, funct7Table, topOpcodes, h1]
  by_cases h5 : funct3Of w = 0b101#3
  · simp [funct3Table, funct7Table, topOpcodes, h5]
  · simp [funct3Table_full, funct7Table, topOpcodes, h1, h5]

theorem illegal_iff_of_op (hop : opcodeOf w = 0b0110011#7) : Illegal w ↔
    funct7Of w ≠ 0b0000000#7 ∧ (funct7Of w = 0b0100000#7 → funct3Of w ≠ 0b000#3 ∧ funct3Of w ≠ 0b101#3) ∧
      funct7Of w ≠ 0b0000001#7 := by
  rw [illegal_iff, hop]
  by_cases h0 : funct3Of w = 0b000#3
  · simp [funct3Table_full, funct7Table, topOpcodes, h0]
  by_cases h5 : funct3Of w = 0b101#3
  · simp [funct3Table_full, funct7Table, topOpcodes, h5]
  · simp [funct3Table_full, funct7Table, topOpcodes, h0, h5]

/-- R91: the words that the decoder refuses, opcode by opcode. -/
theorem decode_error_iff : (∃ r, decode w = .error r) ↔ Illegal w := by
  by_cases htop : opcodeOf w ∈ topOpcodes
  case neg =>
    rw [decode_of_opcode_not_top htop, illegal_iff]
    simp [htop]
  obtain lui | auipc | jal | jalr | branch | load | store | opImm | op | fence | system := (mem_topOpcodes_iff _).mp htop
  · rw [decode_of_opcode_lui lui, illegal_iff, lui]
    simp [topOpcodes, funct3Table, funct7Table]
  · rw [decode_of_opcode_auipc auipc, illegal_iff, auipc]
    simp [topOpcodes, funct3Table, funct7Table]
  · rw [decode_of_opcode_jal jal, illegal_iff, jal]
    simp [topOpcodes, funct3Table, funct7Table]
  · rw [decode_of_opcode_jalr jalr, illegal_iff, jalr]
    split_ifs with hf3 <;> simp [topOpcodes, funct3Table, funct7Table, hf3]
  · rw [decode_of_opcode_branch branch, decodeBranch_error_iff, illegal_iff, branch]
    simp [topOpcodes, funct3Table, funct7Table]
  · rw [decode_of_opcode_load load, decodeLoad_error_iff, illegal_iff, load]
    simp [topOpcodes, funct3Table, funct7Table]
  · rw [decode_of_opcode_store store, decodeStore_error_iff, illegal_iff, store]
    simp [topOpcodes, funct3Table, funct7Table]
  · rw [decode_of_opcode_opImm opImm, decodeOpImm_error_iff, illegal_iff_of_opImm opImm]
  · rw [decode_of_opcode_op op, decodeOp_error_iff, illegal_iff_of_op op]
  · rw [decode_of_opcode_fence fence, illegal_iff, fence]
    split_ifs with hf3 <;> simp [topOpcodes, funct3Table, funct7Table, hf3]
  · rw [decode_of_opcode_system system, decodeSystem_error_iff, illegal_iff, system]
    simp [topOpcodes, funct3Table, funct7Table]

end

/-- Settles O44: the decoder's refusals are the cases of R91, and of the faults of a step only the decoder's is DecodeError. -/
theorem decodeErrorExactlyForIllegalWords : Obligations.DecodeErrorExactlyForIllegalWords := by
  unfold Obligations.DecodeErrorExactlyForIllegalWords
  refine ⟨fun w => decode_error_iff, fun s hsteps hpc => ?_⟩
  rw [← decode_error_iff]
  constructor
  · intro hfault
    cases hdecode : decode (word s s.pc) with
    | error r => exact ⟨r, rfl⟩
    | ok i =>
      obtain ⟨a, w, -, -, hf⟩ := exec_fault_cases ((step_of_decode_ok hsteps hpc hdecode).symm.trans hfault)
      cases hf
  · rintro ⟨r, hdecode⟩
    exact step_of_decode_error hsteps hpc hdecode

end Sys2Proof.Machine
end

section
/-! The immediates of decoded words (30_encoding.md R81 to R85): an instruction holds the immediate its format reads. -/

namespace Sys2Proof.Machine

/-- The immediate that a format reads from a word; R has none. -/
def immOfFormat (w : Word) : Format → Option Word
  | .R => none
  | .I => some (immIOf w)
  | .S => some (immSOf w)
  | .B => some (immBOf w)
  | .U => some (immUOf w)
  | .J => some (immJOf w)

theorem immIOf_encodeI_imm12Of {imm : Word} (f3 : BitVec 3) (op : BitVec 7) (rd rs1 : RegIdx) (h : immFits12 imm = true) :
    immIOf (encodeI (imm12Of imm) f3 op rd rs1) = imm :=
  (immIOf_encodeI ..).trans (signExtend_low12 h)

/-- The immediate that a well-formed instruction holds is read from its word. -/
theorem immOfFormat_encode {i : Instr} {imm : Word} (hwf : i.WellFormed) (h : i.imm = some imm) :
    immOfFormat (encode i) i.format = some imm := by
  cases i <;> cases h
  case lui | auipc => exact congrArg some (immUOf_encodeU _ _ hwf)
  case jal => exact congrArg some (immJOf_encodeJ _ _ hwf)
  case beq | bne | blt | bge | bltu | bgeu => exact congrArg some (immBOf_encodeB _ _ _ _ hwf)
  case sb | sh | sw => exact congrArg some (immSOf_encodeS _ _ _ _ hwf)
  case ecall | ebreak => exact congrArg some (immIOf_encodeI ..)
  all_goals exact congrArg some (immIOf_encodeI_imm12Of _ _ _ _ hwf)

/-- The immediate of a decoded word is the one its format reads. -/
theorem immOfFormat_of_decode {w : Word} {i : Instr} {imm : Word} (hdecode : decode w = .ok i) (himm : i.imm = some imm) :
    immOfFormat w i.format = some imm := by
  obtain ⟨hwf, rfl⟩ := encode_of_decode hdecode
  exact immOfFormat_encode hwf himm

/-! ## The values, as sums of the fields by weight -/

section
variable (w : Word)

theorem toInt_immIOf : (immIOf w).toInt = (w.extractLsb' 20 12).toInt := BitVec.toInt_signExtend_of_le (by decide)

theorem toInt_immSOf : (immSOf w).toInt = (w.extractLsb' 25 7).toInt * 32 + ((w.extractLsb' 7 5).toNat : Int) := by
  rw [immSOf, BitVec.toInt_signExtend_of_le (by decide), BitVec.toInt_append]
  simp only [Nat.reduceBEq, Bool.false_eq_true, if_false]
  omega

theorem toInt_immBOf : (immBOf w).toInt = (w.extractLsb' 31 1).toInt * 4096 + ((w.extractLsb' 7 1).toNat : Int) * 2048 +
    ((w.extractLsb' 25 6).toNat : Int) * 32 + ((w.extractLsb' 8 4).toNat : Int) * 2 := by
  rw [immBOf, BitVec.toInt_signExtend_of_le (by decide), BitVec.toInt_append_zero, BitVec.toInt_append, BitVec.toInt_append,
    BitVec.toInt_append]
  simp only [Nat.reduceBEq, Nat.reduceAdd, Bool.false_eq_true, if_false]
  omega

theorem toNat_immUOf : (immUOf w).toNat = (w.extractLsb' 12 20).toNat * 4096 := by
  rw [immUOf, BitVec.toNat_append, BitVec.toNat_ofNat, Nat.zero_mod, Nat.or_zero, Nat.shiftLeft_eq]

theorem toInt_immJOf : (immJOf w).toInt = (w.extractLsb' 31 1).toInt * 1048576 + ((w.extractLsb' 12 8).toNat : Int) * 4096 +
    ((w.extractLsb' 20 1).toNat : Int) * 2048 + ((w.extractLsb' 21 10).toNat : Int) * 2 := by
  rw [immJOf, BitVec.toInt_signExtend_of_le (by decide), BitVec.toInt_append_zero, BitVec.toInt_append, BitVec.toInt_append,
    BitVec.toInt_append]
  simp only [Nat.reduceBEq, Nat.reduceAdd, Bool.false_eq_true, if_false]
  omega

end

/-! ## The ranges -/

theorem bounds_of_immFits12 {imm : Word} (h : immFits12 imm = true) : -2048 ≤ imm.toInt ∧ imm.toInt ≤ 2047 := by
  simpa [immFits12] using h

theorem bounds_of_immFitsB {imm : Word} (h : immFitsB imm = true) : -4096 ≤ imm.toInt ∧ imm.toInt ≤ 4094 := by
  simp only [immFitsB, Bool.and_eq_true, decide_eq_true_eq] at h
  exact h.1

theorem bounds_of_immFitsJ {imm : Word} (h : immFitsJ imm = true) : -1048576 ≤ imm.toInt ∧ imm.toInt ≤ 1048574 := by
  simp only [immFitsJ, Bool.and_eq_true, decide_eq_true_eq] at h
  exact h.1

/-- Settles O46: the immediate held is the one the format reads, whose value is the weighted sum and whose range the format's. -/
theorem immediatesHaveTheirFormatsRange : Obligations.ImmediatesHaveTheirFormatsRange := by
  unfold Obligations.ImmediatesHaveTheirFormatsRange
  intro w i imm hdecode himm
  have hread := immOfFormat_of_decode hdecode himm
  refine ⟨fun hformat => ?I, fun hformat => ?S, fun hformat => ?B, fun hformat => ?U, fun hformat => ?J⟩
  all_goals
    rw [hformat] at hread
    cases hread
  case I => exact ⟨toInt_immIOf w, bounds_of_immFits12 (immFits12_immIOf w)⟩
  case S => exact ⟨toInt_immSOf w, bounds_of_immFits12 (immFits12_immSOf w)⟩
  case B => exact ⟨toInt_immBOf w, bounds_of_immFitsB (immFitsB_immBOf w)⟩
  case U => exact toNat_immUOf w
  case J => exact ⟨toInt_immJOf w, bounds_of_immFitsJ (immFitsJ_immJOf w)⟩

end Sys2Proof.Machine
end

section
/-! The decoder against the rows of opcode_table.json. -/

namespace Sys2Proof.Machine

open Sys2Proof.Spec

/-! ## Every row's words decode to its mnemonic -/

/-- A row fixes a field of its words to a value: its mask covers the field. -/
def FixesField (r : OpcodeRow) (lo : Nat) {len : Nat} (v : BitVec len) : Prop :=
  r.mask.extractLsb' lo len = BitVec.allOnes len ∧ r.matchBits.extractLsb' lo len = v

theorem field_of_accepts {r : OpcodeRow} {w : Word} {lo len : Nat} {v : BitVec len} (hfix : FixesField r lo v)
    (h : r.accepts w = true) : w.extractLsb' lo len = v := by
  obtain ⟨hmask, hmatch⟩ := hfix
  rw [← hmatch, ← beq_iff_eq.mp h, BitVec.extractLsb'_and, hmask, BitVec.and_allOnes]

/-- The words of a row decode, to an instruction of the row's mnemonic. -/
def RowDecodes (r : OpcodeRow) : Prop := ∀ w, r.accepts w = true → ∃ i, decode w = .ok i ∧ i.mnemonic = r.mnemonic

/-! Each format's argument; the fields a row fixes and its name are computed. -/

section
variable {r : OpcodeRow} {op : BitVec 7} {f3 : BitVec 3} {f7 : BitVec 7}

theorem rowDecodes_U {mk : RegIdx → Word → Instr} (hd : DecodesU op mk)
    (hname : ∀ rd imm, (mk rd imm).mnemonic = r.mnemonic := by exact fun _ _ => rfl)
    (hop : FixesField r 0 op := by exact ⟨rfl, rfl⟩) : RowDecodes r :=
  fun w h => ⟨_, hd w (field_of_accepts hop h), hname _ _⟩

theorem rowDecodes_I {mk : RegIdx → RegIdx → Word → Instr} (hd : DecodesI op f3 mk)
    (hname : ∀ rd rs1 imm, (mk rd rs1 imm).mnemonic = r.mnemonic := by exact fun _ _ _ => rfl)
    (hop : FixesField r 0 op := by exact ⟨rfl, rfl⟩) (hf3 : FixesField r 12 f3 := by exact ⟨rfl, rfl⟩) : RowDecodes r :=
  fun w h => ⟨_, hd w (field_of_accepts hop h) (field_of_accepts hf3 h), hname _ _ _⟩

theorem rowDecodes_S {mk : RegIdx → RegIdx → Word → Instr} (hd : DecodesS f3 mk)
    (hname : ∀ rs1 rs2 imm, (mk rs1 rs2 imm).mnemonic = r.mnemonic := by exact fun _ _ _ => rfl)
    (hop : FixesField r 0 0b0100011#7 := by exact ⟨rfl, rfl⟩) (hf3 : FixesField r 12 f3 := by exact ⟨rfl, rfl⟩) : RowDecodes r :=
  fun w h => ⟨_, hd w (field_of_accepts hop h) (field_of_accepts hf3 h), hname _ _ _⟩

theorem rowDecodes_B {mk : RegIdx → RegIdx → Word → Instr} (hd : DecodesB f3 mk)
    (hname : ∀ rs1 rs2 imm, (mk rs1 rs2 imm).mnemonic = r.mnemonic := by exact fun _ _ _ => rfl)
    (hop : FixesField r 0 0b1100011#7 := by exact ⟨rfl, rfl⟩) (hf3 : FixesField r 12 f3 := by exact ⟨rfl, rfl⟩) : RowDecodes r :=
  fun w h => ⟨_, hd w (field_of_accepts hop h) (field_of_accepts hf3 h), hname _ _ _⟩

theorem rowDecodes_shift {mk : RegIdx → RegIdx → BitVec 5 → Instr} (hd : DecodesShift f3 f7 mk)
    (hname : ∀ rd rs1 shamt, (mk rd rs1 shamt).mnemonic = r.mnemonic := by exact fun _ _ _ => rfl)
    (hop : FixesField r 0 0b0010011#7 := by exact ⟨rfl, rfl⟩) (hf3 : FixesField r 12 f3 := by exact ⟨rfl, rfl⟩)
    (hf7 : FixesField r 25 f7 := by exact ⟨rfl, rfl⟩) : RowDecodes r :=
  fun w h => ⟨_, hd w (field_of_accepts hop h) (field_of_accepts hf3 h) (field_of_accepts hf7 h), hname _ _ _⟩

theorem rowDecodes_R {mk : RegIdx → RegIdx → RegIdx → Instr} (hd : DecodesR f3 f7 mk)
    (hname : ∀ rd rs1 rs2, (mk rd rs1 rs2).mnemonic = r.mnemonic := by exact fun _ _ _ => rfl)
    (hop : FixesField r 0 0b0110011#7 := by exact ⟨rfl, rfl⟩) (hf3 : FixesField r 12 f3 := by exact ⟨rfl, rfl⟩)
    (hf7 : FixesField r 25 f7 := by exact ⟨rfl, rfl⟩) : RowDecodes r :=
  fun w h => ⟨_, hd w (field_of_accepts hop h) (field_of_accepts hf3 h) (field_of_accepts hf7 h), hname _ _ _⟩

end

theorem rowsUpper_decode : ∀ r ∈ rowsUpper, RowDecodes r := by
  simp only [rowsUpper, List.forall_mem_cons]
  exact ⟨rowDecodes_U decodesU_lui, rowDecodes_U decodesU_auipc, List.forall_mem_nil _⟩

theorem rowsJump_decode : ∀ r ∈ rowsJump, RowDecodes r := by
  simp only [rowsJump, List.forall_mem_cons]
  exact ⟨fun w h => ⟨_, decode_of_opcode_jal (field_of_accepts ⟨rfl, rfl⟩ h), rfl⟩, rowDecodes_I decodesI_jalr,
    List.forall_mem_nil _⟩

theorem rowsBranch_decode : ∀ r ∈ rowsBranch, RowDecodes r := by
  simp only [rowsBranch, List.forall_mem_cons]
  exact ⟨rowDecodes_B decodesB_beq, rowDecodes_B decodesB_bne, rowDecodes_B decodesB_blt, rowDecodes_B decodesB_bge,
    rowDecodes_B decodesB_bltu, rowDecodes_B decodesB_bgeu, List.forall_mem_nil _⟩

theorem rowsMemory_decode : ∀ r ∈ rowsMemory, RowDecodes r := by
  simp only [rowsMemory, List.forall_mem_cons]
  exact ⟨rowDecodes_I decodesI_lb, rowDecodes_I decodesI_lh, rowDecodes_I decodesI_lw, rowDecodes_I decodesI_lbu,
    rowDecodes_I decodesI_lhu, rowDecodes_S decodesS_sb, rowDecodes_S decodesS_sh, rowDecodes_S decodesS_sw, List.forall_mem_nil _⟩

theorem rowsImmediate_decode : ∀ r ∈ rowsImmediate, RowDecodes r := by
  simp only [rowsImmediate, List.forall_mem_cons]
  exact ⟨rowDecodes_I decodesI_addi, rowDecodes_I decodesI_slti, rowDecodes_I decodesI_sltiu, rowDecodes_I decodesI_xori,
    rowDecodes_I decodesI_ori, rowDecodes_I decodesI_andi, rowDecodes_shift decodesShift_slli, rowDecodes_shift decodesShift_srli,
    rowDecodes_shift decodesShift_srai, List.forall_mem_nil _⟩

theorem rowsRegister_decode : ∀ r ∈ rowsRegister, RowDecodes r := by
  simp only [rowsRegister, List.forall_mem_cons]
  exact ⟨rowDecodes_R decodesR_add, rowDecodes_R decodesR_sub, rowDecodes_R decodesR_sll, rowDecodes_R decodesR_slt,
    rowDecodes_R decodesR_sltu, rowDecodes_R decodesR_xor, rowDecodes_R decodesR_srl, rowDecodes_R decodesR_sra,
    rowDecodes_R decodesR_or, rowDecodes_R decodesR_and, List.forall_mem_nil _⟩

theorem rowsMulDiv_decode : ∀ r ∈ rowsMulDiv, RowDecodes r := by
  simp only [rowsMulDiv, List.forall_mem_cons]
  exact ⟨rowDecodes_R decodesR_mul, rowDecodes_R decodesR_mulh, rowDecodes_R decodesR_mulhsu, rowDecodes_R decodesR_mulhu,
    rowDecodes_R decodesR_div, rowDecodes_R decodesR_divu, rowDecodes_R decodesR_rem, rowDecodes_R decodesR_remu,
    List.forall_mem_nil _⟩

theorem rowsSystem_decode : ∀ r ∈ rowsSystem, RowDecodes r := by
  simp only [rowsSystem, List.forall_mem_cons]
  refine ⟨rowDecodes_I decodesI_fence, fun w h => ⟨_, decode_of_ecall_fields ?_ ?_ ?_, rfl⟩,
    fun w h => ⟨_, decode_of_ebreak_fields ?_ ?_ ?_, rfl⟩, List.forall_mem_nil _⟩
  all_goals exact field_of_accepts ⟨rfl, rfl⟩ h

theorem opcodeTable_decodes : ∀ r ∈ opcodeTable, RowDecodes r := by
  simp only [opcodeTable, List.forall_mem_append]
  exact ⟨⟨⟨⟨⟨⟨⟨rowsUpper_decode, rowsJump_decode⟩, rowsBranch_decode⟩, rowsMemory_decode⟩, rowsImmediate_decode⟩,
    rowsRegister_decode⟩, rowsMulDiv_decode⟩, rowsSystem_decode⟩

/-! ## Every instruction's word is accepted by the row of its mnemonic -/

theorem encodesRow : ∀ i, Laws.EncodesRow.Statement i
  | .lui rd imm => Laws.EncodesRow.lui rd imm
  | .auipc rd imm => Laws.EncodesRow.auipc rd imm
  | .jal rd imm => Laws.EncodesRow.jal rd imm
  | .jalr rd rs1 imm => Laws.EncodesRow.jalr rd rs1 imm
  | .beq rs1 rs2 imm => Laws.EncodesRow.beq rs1 rs2 imm
  | .bne rs1 rs2 imm => Laws.EncodesRow.bne rs1 rs2 imm
  | .blt rs1 rs2 imm => Laws.EncodesRow.blt rs1 rs2 imm
  | .bge rs1 rs2 imm => Laws.EncodesRow.bge rs1 rs2 imm
  | .bltu rs1 rs2 imm => Laws.EncodesRow.bltu rs1 rs2 imm
  | .bgeu rs1 rs2 imm => Laws.EncodesRow.bgeu rs1 rs2 imm
  | .lb rd rs1 imm => Laws.EncodesRow.lb rd rs1 imm
  | .lh rd rs1 imm => Laws.EncodesRow.lh rd rs1 imm
  | .lw rd rs1 imm => Laws.EncodesRow.lw rd rs1 imm
  | .lbu rd rs1 imm => Laws.EncodesRow.lbu rd rs1 imm
  | .lhu rd rs1 imm => Laws.EncodesRow.lhu rd rs1 imm
  | .sb rs1 rs2 imm => Laws.EncodesRow.sb rs1 rs2 imm
  | .sh rs1 rs2 imm => Laws.EncodesRow.sh rs1 rs2 imm
  | .sw rs1 rs2 imm => Laws.EncodesRow.sw rs1 rs2 imm
  | .addi rd rs1 imm => Laws.EncodesRow.addi rd rs1 imm
  | .slti rd rs1 imm => Laws.EncodesRow.slti rd rs1 imm
  | .sltiu rd rs1 imm => Laws.EncodesRow.sltiu rd rs1 imm
  | .xori rd rs1 imm => Laws.EncodesRow.xori rd rs1 imm
  | .ori rd rs1 imm => Laws.EncodesRow.ori rd rs1 imm
  | .andi rd rs1 imm => Laws.EncodesRow.andi rd rs1 imm
  | .slli rd rs1 shamt => Laws.EncodesRow.slli rd rs1 shamt
  | .srli rd rs1 shamt => Laws.EncodesRow.srli rd rs1 shamt
  | .srai rd rs1 shamt => Laws.EncodesRow.srai rd rs1 shamt
  | .add rd rs1 rs2 => Laws.EncodesRow.add rd rs1 rs2
  | .sub rd rs1 rs2 => Laws.EncodesRow.sub rd rs1 rs2
  | .sll rd rs1 rs2 => Laws.EncodesRow.sll rd rs1 rs2
  | .slt rd rs1 rs2 => Laws.EncodesRow.slt rd rs1 rs2
  | .sltu rd rs1 rs2 => Laws.EncodesRow.sltu rd rs1 rs2
  | .xor rd rs1 rs2 => Laws.EncodesRow.xor rd rs1 rs2
  | .srl rd rs1 rs2 => Laws.EncodesRow.srl rd rs1 rs2
  | .sra rd rs1 rs2 => Laws.EncodesRow.sra rd rs1 rs2
  | .or rd rs1 rs2 => Laws.EncodesRow.or rd rs1 rs2
  | .and rd rs1 rs2 => Laws.EncodesRow.and rd rs1 rs2
  | .mul rd rs1 rs2 => Laws.EncodesRow.mul rd rs1 rs2
  | .mulh rd rs1 rs2 => Laws.EncodesRow.mulh rd rs1 rs2
  | .mulhsu rd rs1 rs2 => Laws.EncodesRow.mulhsu rd rs1 rs2
  | .mulhu rd rs1 rs2 => Laws.EncodesRow.mulhu rd rs1 rs2
  | .div rd rs1 rs2 => Laws.EncodesRow.div rd rs1 rs2
  | .divu rd rs1 rs2 => Laws.EncodesRow.divu rd rs1 rs2
  | .rem rd rs1 rs2 => Laws.EncodesRow.rem rd rs1 rs2
  | .remu rd rs1 rs2 => Laws.EncodesRow.remu rd rs1 rs2
  | .fence rd rs1 imm => Laws.EncodesRow.fence rd rs1 imm
  | .ecall rd rs1 => Laws.EncodesRow.ecall rd rs1
  | .ebreak rd rs1 => Laws.EncodesRow.ebreak rd rs1

/-- A decoded word is accepted by a row of its mnemonic. -/
theorem exists_row_of_decode {w : Word} {i : Instr} (hdecode : decode w = .ok i) :
    ∃ r ∈ opcodeTable, r.mnemonic = i.mnemonic ∧ r.accepts w = true := by
  obtain ⟨-, rfl⟩ := encode_of_decode hdecode
  obtain ⟨r, hrow, haccepts⟩ := encodesRow i
  unfold Laws.rowOf at hrow
  have hname := List.find?_some hrow
  exact ⟨r, List.mem_of_find?_eq_some hrow, beq_iff_eq.mp hname, haccepts⟩

/-! ## One row for each mnemonic -/

theorem opcodeTable_mnemonic_nodup : (opcodeTable.map OpcodeRow.mnemonic).Nodup := by decide

theorem row_eq_of_mnemonic_eq {r q : OpcodeRow} (hr : r ∈ opcodeTable) (hq : q ∈ opcodeTable) (h : r.mnemonic = q.mnemonic) : r = q :=
  List.inj_on_of_nodup_map opcodeTable_mnemonic_nodup hr hq h

/-- Settles O45: a row's words decode to its mnemonic, and a decoded word is accepted by the one row of its mnemonic. -/
theorem decoderAgreesWithTheOpcodeTable : Obligations.DecoderAgreesWithTheOpcodeTable := by
  unfold Obligations.DecoderAgreesWithTheOpcodeTable
  refine ⟨fun w i hdecode => ⟨exists_row_of_decode hdecode, fun r hr => ⟨fun haccepts => ?sound, fun hname => ?complete⟩⟩,
    fun w e herror r hr => ?rejected⟩
  case sound =>
    obtain ⟨j, hj, hname⟩ := opcodeTable_decodes r hr w haccepts
    cases hj.symm.trans hdecode
    exact hname.symm
  case complete =>
    obtain ⟨q, hq, hqname, haccepts⟩ := exists_row_of_decode hdecode
    obtain rfl := row_eq_of_mnemonic_eq hr hq (hname.trans hqname.symm)
    exact haccepts
  case rejected =>
    by_contra haccepts
    obtain ⟨j, hj, -⟩ := opcodeTable_decodes r hr w (Bool.eq_true_of_not_eq_false haccepts)
    cases hj.symm.trans herror

end Sys2Proof.Machine
end

section
/-! The launch (10_state.md R55 to R59). -/

namespace Sys2Proof.Machine

open Sys2Proof.Spec

/-- What a launch that answers a state has done: loaded the image and found an entry. -/
theorem launch_next_cases {p : LaunchParams} {s : State} (h : launch p = .next s) :
    ∃ e pc mem, loadImage p.verifyChecksum p.image = .ok (e, mem) ∧ launchEntry p e = some pc ∧
      s = { regs := launchRegs p, pc := pc, mem := mem, run := .running, retired := 0, fuel := p.fuel } := by
  unfold launch at h
  split at h
  · cases h
  · next e mem hload =>
    split at h
    · cases h
    · next pc hentry =>
      cases h
      exact ⟨e, pc, mem, hload, hentry, rfl⟩

/-- The loader's memory is canonical, of either form of image. -/
theorem wf_loadImage {verify : Bool} {image : Image} {e : Option Word} {mem : Memory}
    (h : loadImage verify image = .ok (e, mem)) : mem.wf := by
  cases image with
  | bytes map =>
    cases h
    exact wf_placeMap wf_nil map
  | hex text =>
    simp only [loadImage, loadHex] at h
    split at h
    · next st hlines =>
      cases h
      exact wf_loadLines _ wf_nil hlines
    · cases h

theorem launchEntry_of_override {p : LaunchParams} {e : Option Word} {pc : Word} (h : p.entryOverride = some pc) :
    launchEntry p e = some pc := by
  simp [launchEntry, h]

theorem launchEntry_of_none {p : LaunchParams} {e : Option Word} (h : p.entryOverride = none) : launchEntry p e = e := by
  simp [launchEntry, h]

/-- R28: x2 is at SP_INIT when that is given. -/
theorem launchRegs_sp {p : LaunchParams} {sp : Word} (h : p.spInit = some sp) : (launchRegs p)[1] = sp := by
  simp [launchRegs, h]

/-- R56: every other register is at INIT_REGS. -/
theorem launchRegs_other {p : LaunchParams} {k : Nat} (hk : k < 31) (h : p.spInit = none ∨ k ≠ 1) :
    (launchRegs p)[k] = p.initRegs[k] := by
  unfold launchRegs
  split
  · next sp hsp =>
    have hne : 1 ≠ k := by
      rintro rfl
      simp [hsp] at h
    exact Vector.getElem_set_ne _ hk hne
  · rfl

/-- Settles O48: the launch's one answer that is a state, field by field. -/
theorem launchedStateIsAsTheSpecSays : Obligations.LaunchedStateIsAsTheSpecSays := by
  unfold Obligations.LaunchedStateIsAsTheSpecSays
  intro p s hlaunch
  obtain ⟨e, pc, mem, hload, hentry, rfl⟩ := launch_next_cases hlaunch
  refine ⟨?inv, rfl, rfl, rfl, fun pc' hpc' => ?entry, ⟨e, mem, hload, rfl, fun hnone => ?image⟩, fun sp hsp => ?sp,
    fun k hk => ?regs⟩
  case inv =>
    refine ⟨wf_loadImage hload, fun _ _ => Nat.zero_le _, fun hbound => ?_, fun hhalted => ?_⟩
    · cases hbound
    · cases hhalted
  case entry => exact Option.some.inj (hentry.symm.trans (launchEntry_of_override hpc'))
  case image => exact (launchEntry_of_none hnone).symm.trans hentry
  case sp => exact (readReg_succ _ (k := 1) (by decide)).trans (launchRegs_sp hsp)
  case regs => exact (readReg_succ _ k.isLt).trans (launchRegs_other k.isLt hk)

end Sys2Proof.Machine
end

section
/-! The data record of the loader (70_reset_and_hazards.md R172). -/

namespace Sys2Proof.Machine

/-- The address after `a + i` is `i` places after the address after `a`. -/
theorem add_ofNat_succ (a : Word) (i : Nat) : a + BitVec.ofNat 32 (i + 1) = a + 1 + BitVec.ofNat 32 i := by
  rw [Nat.add_comm i 1, BitVec.ofNat_add, ← BitVec.add_assoc]
  rfl

/-- A byte outside the addresses placed is as before. -/
theorem byte_placeBytes_of_ne (bs : List Byte) {m : Memory} {a x : Word}
    (h : ∀ i, i < bs.length → x ≠ a + BitVec.ofNat 32 i) : (placeBytes m a bs).byte x.toNat = m.byte x.toNat := by
  induction bs generalizing m a with
  | nil => rfl
  | cons b bs ih =>
    have hhead : x ≠ a := by simpa using h 0 (Nat.succ_pos _)
    have hne : x.toNat ≠ a.toNat := fun heq => hhead (BitVec.eq_of_toNat_eq heq)
    rw [placeBytes, ih, byte_setByte, if_neg hne]
    intro i hi
    have htail := h (i + 1) (Nat.succ_lt_succ hi)
    rwa [add_ofNat_succ] at htail

/-- Byte i of at most 2^32 bytes is at its address, wrapped: no later byte comes back to it. -/
theorem byte_placeBytes (bs : List Byte) {m : Memory} {a : Word} (hlen : bs.length ≤ 4294967296) {i : Nat} (hi : i < bs.length) :
    (placeBytes m a bs).byte (a + BitVec.ofNat 32 i).toNat = bs[i] := by
  induction bs generalizing m a i with
  | nil => cases hi
  | cons b bs ih =>
    rw [List.length_cons] at hlen hi
    cases i with
    | zero =>
      rw [placeBytes, byte_placeBytes_of_ne bs, byte_setByte]
      · simp
      · intro j hj heq
        bv_omega
    | succ i =>
      rw [placeBytes, add_ofNat_succ]
      exact ih (by omega) (by omega)

/-- Settles O49: a type 00 record is its data placed from `base + AAAA` on. -/
theorem dataRecordPlacesItsBytes : Obligations.DataRecordPlacesItsBytes := by
  unfold Obligations.DataRecordPlacesItsBytes
  intro st st' aaaa dd hlen hrecord
  have hst : st' = { st with mem := placeBytes st.mem (st.base + aaaa) dd } := by
    cases hrecord
    rfl
  subst hst
  exact ⟨rfl, rfl, fun i hi => byte_placeBytes dd (by omega) hi, fun x hx => byte_placeBytes_of_ne dd hx⟩

end Sys2Proof.Machine
end
